-- ==== Sys2Proof/Word.lean ====
section
/-! DEFINITION. The words of the machine: a 32-bit word, a byte, a register index, and the spec's `u32`. -/

namespace Sys2Proof

/-- A 32-bit pattern: a register's contents, the `pc`, an instruction word (00_scope.md R3, XLEN = ILEN = 32). -/
abbrev Word := BitVec 32

/-- One byte of memory (10_state.md R21). -/
abbrev Byte := BitVec 8

/-- A five-bit register field; every value is a valid index 0 to 31 (10_state.md R12). -/
abbrev RegIdx := BitVec 5

/-- `u32(v)`: the 32-bit pattern of the integer `v`, that is `v mod 2^32` (00_scope.md section 6). -/
abbrev u32 (v : Int) : Word := BitVec.ofInt 32 v

end Sys2Proof
end

