-- ==== Sys2Proof/Syntax.lean ====
section
/-! DEFINITION. The instructions: one constructor for each of the ten rows of spec/opcode_table.json. -/

namespace Sys2Proof

/-- An instruction with its operands. A register operand is a five-bit index; an immediate is the bit pattern its format
carries (30_encoding.md R62, R64 to R68), with the bit 0 that the B and J formats do not store written as bit 0 of
the pattern (it is 0 in a well-formed instruction). -/
inductive Instr where
  /-- `add rd,rs1,rs2` (R110). -/
  | add (rd rs1 rs2 : RegIdx)
  /-- `sub rd,rs1,rs2` (R111). -/
  | sub (rd rs1 rs2 : RegIdx)
  /-- `xor rd,rs1,rs2` (R112). -/
  | xor (rd rs1 rs2 : RegIdx)
  /-- `addi rd,rs1,imm` (R120). -/
  | addi (rd rs1 : RegIdx) (imm : BitVec 12)
  /-- `lw rd,imm(rs1)` (R130). -/
  | lw (rd rs1 : RegIdx) (imm : BitVec 12)
  /-- `sw rs2,imm(rs1)` (R131). -/
  | sw (rs1 rs2 : RegIdx) (imm : BitVec 12)
  /-- `beq rs1,rs2` with a byte offset (R141). -/
  | beq (rs1 rs2 : RegIdx) (offset : BitVec 13)
  /-- `lui rd,imm` with the 20-bit field (R121). -/
  | lui (rd : RegIdx) (imm : BitVec 20)
  /-- `jal rd,offset` with a byte offset (R143). -/
  | jal (rd : RegIdx) (offset : BitVec 21)
  /-- `ecall` (R150). -/
  | ecall
deriving DecidableEq, Repr

end Sys2Proof
end

