-- ==== Sys2Proof/WellFormed.lean ====
section
/-! DEFINITION. Which terms of `Instr` are instructions of the hardware: the B and J formats carry no bit 0 of the
offset, so it must be 0 (30_encoding.md R66, R68). Every other operand is in range by its type (10_state.md R12). -/

namespace Sys2Proof

/-- The offset of a `beq` is even (30_encoding.md R66). -/
def branchOffsetOk (offset : BitVec 13) : Bool := !offset.getLsbD 0

/-- The offset of a `jal` is even (30_encoding.md R68). -/
def jumpOffsetOk (offset : BitVec 21) : Bool := !offset.getLsbD 0

/-- An instruction the encodings can carry. -/
def Instr.wf : Instr → Bool
  | .add _ _ _ => true
  | .sub _ _ _ => true
  | .xor _ _ _ => true
  | .addi _ _ _ => true
  | .lw _ _ _ => true
  | .sw _ _ _ => true
  | .beq _ _ offset => branchOffsetOk offset
  | .lui _ _ => true
  | .jal _ offset => jumpOffsetOk offset
  | .ecall => true

end Sys2Proof
end

