-- ==== Sys2Proof/Decode.lean ====
section
/-! DEFINITION. From a fetched word to the action the CPU performs (30_encoding.md R61, R64 to R68, R76 to R80), total on
every word; the words laid out as bytes (R30, R60); the encoder from an instruction to its canonical word (R62, R70);
and the opcode table's patterns and masks (R70, R76). -/

namespace Sys2Proof

/-! ### Byte order (20_memory.md R30) -/

/-- The 32-bit value of four bytes, the first one at the lowest address (20_memory.md R30). -/
def wordOfBytes (b0 b1 b2 b3 : Byte) : Word := b3 ++ b2 ++ b1 ++ b0

/-- Byte `k` of a word in memory order: bits `8k+7 : 8k` (20_memory.md R30, R37). -/
def byteOfWord (w : Word) (k : Nat) : Byte := w.extractLsb' (8 * k) 8

/-- The four bytes of a word, lowest address first (20_memory.md R30). -/
def bytesOfWord (w : Word) : List Byte := [byteOfWord w 0, byteOfWord w 1, byteOfWord w 2, byteOfWord w 3]

/-! ### Fields (30_encoding.md R61) -/

/-- Bits 6:0. -/
def opcode (w : Word) : BitVec 7 := w.extractLsb' 0 7
/-- Bits 11:7. -/
def rdField (w : Word) : RegIdx := w.extractLsb' 7 5
/-- Bits 14:12. -/
def funct3 (w : Word) : BitVec 3 := w.extractLsb' 12 3
/-- Bits 19:15. -/
def rs1Field (w : Word) : RegIdx := w.extractLsb' 15 5
/-- Bits 24:20. -/
def rs2Field (w : Word) : RegIdx := w.extractLsb' 20 5
/-- Bits 31:25. -/
def funct7 (w : Word) : BitVec 7 := w.extractLsb' 25 7

/-! ### Immediates (30_encoding.md R64 to R68): the bit pattern, which its users read in two's complement -/

/-- The I-immediate's pattern, bits 31:20 (R64). -/
def immI (w : Word) : BitVec 12 := w.extractLsb' 20 12

/-- The S-immediate's pattern: bits 11:5 stand at 31:25, bits 4:0 at 11:7 (R65). PRESUMED by the spec itself (G1). -/
def immS (w : Word) : BitVec 12 := w.extractLsb' 25 7 ++ w.extractLsb' 7 5

/-- The B-immediate's pattern: bit 12 at 31, bit 11 at 7, bits 10:5 at 30:25, bits 4:1 at 11:8, bit 0 is 0 (R66).
PRESUMED by the spec itself (G2). -/
def immB (w : Word) : BitVec 13 :=
  w.extractLsb' 31 1 ++ w.extractLsb' 7 1 ++ w.extractLsb' 25 6 ++ w.extractLsb' 8 4 ++ 0#1

/-- The 20-bit field of the U-immediate, bits 31:12 (R67). -/
def immU (w : Word) : BitVec 20 := w.extractLsb' 12 20

/-- The J-immediate's pattern: bit 20 at 31, bits 19:12 at 19:12, bit 11 at 20, bits 10:1 at 30:21, bit 0 is 0 (R68).
PRESUMED by the spec itself (G3). -/
def immJ (w : Word) : BitVec 21 :=
  w.extractLsb' 31 1 ++ w.extractLsb' 12 8 ++ w.extractLsb' 20 1 ++ w.extractLsb' 21 10 ++ 0#1

/-! ### Decode classes (30_encoding.md R76) -/

/-- The classes of 30_encoding.md R76; they partition the 2^32 words. -/
inductive DecodeClass where
  | add
  | sub
  | xor
  /-- An R-type word that is none of the three: a no-operation (R78). -/
  | rUnrecognised
  | addi
  | lw
  | sw
  | beq
  /-- Opcode 0x63 with another `funct3`: halts (R79). -/
  | bUnimplemented
  | lui
  | jal
  | ecall
  /-- One of the 120 other opcodes: halts (R80). -/
  | unimplemented
deriving DecidableEq, Repr

/-- The class of a word: the first test of the table of 30_encoding.md R76 that applies. A field the table does not name
for an opcode is not examined (decision D9). -/
def classify (w : Word) : DecodeClass :=
  if opcode w = 0x33#7 then
    if funct3 w = 0x0#3 ∧ funct7 w = 0x00#7 then .add
    else if funct3 w = 0x0#3 ∧ funct7 w = 0x20#7 then .sub
    else if funct3 w = 0x4#3 then .xor
    else .rUnrecognised
  else if opcode w = 0x13#7 then .addi
  else if opcode w = 0x03#7 then .lw
  else if opcode w = 0x23#7 then .sw
  else if opcode w = 0x63#7 then
    if funct3 w = 0x0#3 then .beq else .bUnimplemented
  else if opcode w = 0x37#7 then .lui
  else if opcode w = 0x6F#7 then .jal
  else if opcode w = 0x73#7 then .ecall
  else .unimplemented

/-- What the execute stage is to do with a word (40_execution_loop.md R94): one of the ten instructions, the no-operation
of R78, or a halt, each of the last three rejected from the instruction set by its own name. -/
inductive Decoded where
  /-- One of the ten instructions. -/
  | instr (i : Instr)
  /-- An unrecognised R-type word: nothing happens but the `pc` advance (30_encoding.md R78). -/
  | noOperation
  /-- Opcode 0x63 with `funct3` not 0: `UnimplementedInstruction` (30_encoding.md R79). -/
  | branchUnimplemented
  /-- An opcode outside the eight: `UnimplementedInstruction` (30_encoding.md R80). -/
  | opcodeUnimplemented
deriving DecidableEq, Repr

/-- Decode, total on every word (30_encoding.md R76; 40_execution_loop.md R93): it reads nothing but the word. -/
def decodeWord (w : Word) : Decoded :=
  match classify w with
  | .add => .instr (.add (rdField w) (rs1Field w) (rs2Field w))
  | .sub => .instr (.sub (rdField w) (rs1Field w) (rs2Field w))
  | .xor => .instr (.xor (rdField w) (rs1Field w) (rs2Field w))
  | .rUnrecognised => .noOperation
  | .addi => .instr (.addi (rdField w) (rs1Field w) (immI w))
  | .lw => .instr (.lw (rdField w) (rs1Field w) (immI w))
  | .sw => .instr (.sw (rs1Field w) (rs2Field w) (immS w))
  | .beq => .instr (.beq (rs1Field w) (rs2Field w) (immB w))
  | .bUnimplemented => .branchUnimplemented
  | .lui => .instr (.lui (rdField w) (immU w))
  | .jal => .instr (.jal (rdField w) (immJ w))
  | .ecall => .instr .ecall
  | .unimplemented => .opcodeUnimplemented

/-- Decode the first four bytes of a byte sequence, little-endian, with the rest of it; `none` when fewer than four are
left (30_encoding.md R60: every instruction is four bytes). -/
def decodeBytes : List Byte → Option (Decoded × List Byte)
  | b0 :: b1 :: b2 :: b3 :: rest => some (decodeWord (wordOfBytes b0 b1 b2 b3), rest)
  | _ => none

/-! ### The host's window on the decoder -/

/-- The word of an instruction whose low `nbits` bits are `w` and whose bits above are 0 (log entry 14). -/
def tableWord (nbits w : Nat) : Word := BitVec.ofNat 32 (w % 2 ^ nbits)

/-- The instruction the decoder reads from the bits `w` of an opcode-table row, laid out in memory order; `none` where it
gives no instruction. -/
def decodeTableWord (nbits w : Nat) : Option Instr :=
  match decodeBytes (bytesOfWord (tableWord nbits w)) with
  | some (.instr i, _) => some i
  | _ => none

/-! ### The encoder (30_encoding.md R62, R70): the canonical word of an instruction, format by format -/

/-- R format (R62). -/
def formatR (funct7 : BitVec 7) (rs2 rs1 : RegIdx) (funct3 : BitVec 3) (rd : RegIdx) (opcode : BitVec 7) : Word :=
  funct7 ++ rs2 ++ rs1 ++ funct3 ++ rd ++ opcode

/-- I format (R62). -/
def formatI (imm : BitVec 12) (rs1 : RegIdx) (funct3 : BitVec 3) (rd : RegIdx) (opcode : BitVec 7) : Word :=
  imm ++ rs1 ++ funct3 ++ rd ++ opcode

/-- S format (R62). -/
def formatS (imm : BitVec 12) (rs2 rs1 : RegIdx) (funct3 : BitVec 3) (opcode : BitVec 7) : Word :=
  imm.extractLsb' 5 7 ++ rs2 ++ rs1 ++ funct3 ++ imm.extractLsb' 0 5 ++ opcode

/-- B format (R62). -/
def formatB (imm : BitVec 13) (rs2 rs1 : RegIdx) (funct3 : BitVec 3) (opcode : BitVec 7) : Word :=
  imm.extractLsb' 12 1 ++ imm.extractLsb' 5 6 ++ rs2 ++ rs1 ++ funct3 ++ imm.extractLsb' 1 4 ++ imm.extractLsb' 11 1
    ++ opcode

/-- U format (R62). -/
def formatU (imm : BitVec 20) (rd : RegIdx) (opcode : BitVec 7) : Word := imm ++ rd ++ opcode

/-- J format (R62). -/
def formatJ (imm : BitVec 21) (rd : RegIdx) (opcode : BitVec 7) : Word :=
  imm.extractLsb' 20 1 ++ imm.extractLsb' 1 10 ++ imm.extractLsb' 11 1 ++ imm.extractLsb' 12 8 ++ rd ++ opcode

/-- The canonical word of an instruction (30_encoding.md R70; `funct3` of `sw` by R71). -/
def encode : Instr → Word
  | .add rd rs1 rs2 => formatR 0x00#7 rs2 rs1 0x0#3 rd 0x33#7
  | .sub rd rs1 rs2 => formatR 0x20#7 rs2 rs1 0x0#3 rd 0x33#7
  | .xor rd rs1 rs2 => formatR 0x00#7 rs2 rs1 0x4#3 rd 0x33#7
  | .addi rd rs1 imm => formatI imm rs1 0x0#3 rd 0x13#7
  | .lw rd rs1 imm => formatI imm rs1 0x2#3 rd 0x03#7
  | .sw rs1 rs2 imm => formatS imm rs2 rs1 0x2#3 0x23#7
  | .beq rs1 rs2 offset => formatB offset rs2 rs1 0x0#3 0x63#7
  | .lui rd imm => formatU imm rd 0x37#7
  | .jal rd offset => formatJ offset rd 0x6F#7
  | .ecall => 0x00000073#32

/-! ### The opcode table (30_encoding.md R70, R76; spec/opcode_table.json) -/

/-- The ten mnemonics (00_scope.md R2). -/
inductive Mnemonic where
  | add
  | sub
  | xor
  | addi
  | lw
  | sw
  | beq
  | lui
  | jal
  | ecall
deriving DecidableEq, Repr

/-- The mnemonic of an instruction. -/
def Instr.mnemonic : Instr → Mnemonic
  | .add _ _ _ => .add
  | .sub _ _ _ => .sub
  | .xor _ _ _ => .xor
  | .addi _ _ _ => .addi
  | .lw _ _ _ => .lw
  | .sw _ _ _ => .sw
  | .beq _ _ _ => .beq
  | .lui _ _ => .lui
  | .jal _ _ => .jal
  | .ecall => .ecall

/-- The decode class that executes a mnemonic (30_encoding.md R76). -/
def Mnemonic.decodeClass : Mnemonic → DecodeClass
  | .add => .add
  | .sub => .sub
  | .xor => .xor
  | .addi => .addi
  | .lw => .lw
  | .sw => .sw
  | .beq => .beq
  | .lui => .lui
  | .jal => .jal
  | .ecall => .ecall

/-- A row of the opcode table: `pattern` and `mask` give the canonical encodings (R70), `decodePattern` and `decodeMask`
the words the CPU executes as the instruction (R76). -/
structure TableRow where
  pattern : Word
  mask : Word
  decodePattern : Word
  decodeMask : Word
deriving DecidableEq, Repr

/-- The rows of spec/opcode_table.json. -/
def Mnemonic.row : Mnemonic → TableRow
  | .add => ⟨0x00000033#32, 0xFE00707F#32, 0x00000033#32, 0xFE00707F#32⟩
  | .sub => ⟨0x40000033#32, 0xFE00707F#32, 0x40000033#32, 0xFE00707F#32⟩
  | .xor => ⟨0x00004033#32, 0xFE00707F#32, 0x00004033#32, 0x0000707F#32⟩
  | .addi => ⟨0x00000013#32, 0x0000707F#32, 0x00000013#32, 0x0000007F#32⟩
  | .lw => ⟨0x00002003#32, 0x0000707F#32, 0x00000003#32, 0x0000007F#32⟩
  | .sw => ⟨0x00002023#32, 0x0000707F#32, 0x00000023#32, 0x0000007F#32⟩
  | .beq => ⟨0x00000063#32, 0x0000707F#32, 0x00000063#32, 0x0000707F#32⟩
  | .lui => ⟨0x00000037#32, 0x0000007F#32, 0x00000037#32, 0x0000007F#32⟩
  | .jal => ⟨0x0000006F#32, 0x0000007F#32, 0x0000006F#32, 0x0000007F#32⟩
  | .ecall => ⟨0x00000073#32, 0xFFFFFFFF#32, 0x00000073#32, 0x0000007F#32⟩

/-- `w` is a canonical encoding of the mnemonic: `w & mask == match` (30_encoding.md R70). -/
abbrev Mnemonic.canonical (m : Mnemonic) (w : Word) : Prop := w &&& m.row.mask = m.row.pattern

/-- The CPU executes `w` as the mnemonic, by the table: `w & decode_mask == decode_match` (30_encoding.md R76). -/
abbrev Mnemonic.executes (m : Mnemonic) (w : Word) : Prop := w &&& m.row.decodeMask = m.row.decodePattern

end Sys2Proof
end

