-- ==== Sys2Proof/Config.lean ====
section
/-! DEFINITION. The parameters of the hardware (00_scope.md R3): the fixed ones, the reference value of the one
open parameter `MEM_SIZE`, and the range the spec allows for it. There is no free value: the spec leaves no value of the
CPU open. -/

namespace Sys2Proof.Config

/-- `MEM_SIZE` in the reference: 1 MiB (00_scope.md R3). The size in force is `State.memSize` (log entry 1). -/
def refMemSize : Nat := 1048576

/-- The range of `MEM_SIZE`: 4 to 2^32 (00_scope.md R3, decision D3). -/
abbrev memSizeOk (n : Nat) : Prop := 4 ≤ n ∧ n ≤ 2 ^ 32

/-- `RESET_PC` (00_scope.md R3). -/
def resetPc : Word := 0

/-- `LOAD_BASE`: where byte 0 of the image is placed (00_scope.md R3). -/
def loadBase : Nat := 0

/-- `EXIT_CODE`: the value of the system-call register that makes `ecall` halt (00_scope.md R3). -/
def exitCode : Word := 10

/-- `SYSCALL_REG`: the register `ecall` reads, `a7` (00_scope.md R3). -/
def syscallReg : RegIdx := 17

/-- `ASM_BASE`: the address the assembler gives the first instruction (00_scope.md R3). -/
def asmBase : Nat := 0

end Sys2Proof.Config
end

