-- ==== Sys2Proof/Machine/State.lean ====
section
/-! DEFINITION. The state of the CPU (10_state.md section 1), plain data, with its reset value, and the reasons a step
could stop outside the machine. -/

namespace Sys2Proof.Machine

/-- `halt_cause` (10_state.md R20): why the CPU is halted; its codes are `HaltCause.code` (log entry 12). -/
inductive HaltCause where
  /-- The CPU is running. -/
  | none
  /-- The clean halt of `ecall` (45_system.md R150). -/
  | exit
  /-- A fetch out of bounds (40_execution_loop.md R91). -/
  | outOfBoundsFetch
  /-- A load out of bounds (43_load_store.md R130). -/
  | outOfBoundsLoad
  /-- A store out of bounds (43_load_store.md R131). -/
  | outOfBoundsStore
  /-- A word the CPU does not implement (30_encoding.md R79, R80). -/
  | unimplementedInstruction
deriving DecidableEq, Repr

/-- Memory as the list of the bytes that differ from what an unlisted address reads as, addresses strictly rising
(`Memory.wf`). An unlisted address reads as `Memory.unlisted`. -/
abbrev Memory := List Host.Cell

/-- The state of the CPU: everything 10_state.md section 1 lists, and the parameter `MEM_SIZE` of the run. -/
structure State where
  /-- `x[0]` to `x[31]`; register 0 is an ordinary register (10_state.md R10, R11). -/
  regs : Vector Word 32
  /-- The program counter (10_state.md R15). -/
  pc : Word
  /-- 1 is halted, 0 is running (10_state.md R19). -/
  halted : Bool
  /-- The latched reason of the halt (10_state.md R20). -/
  haltCause : HaltCause
  /-- `mem[0]` to `mem[MEM_SIZE-1]` (10_state.md R21). -/
  mem : Memory
  /-- `MEM_SIZE` (00_scope.md R3): a parameter of the run, which no step changes (10_state.md R24). DESIGN CHOICE log
  entry 1: it is carried here so that one `step` is the step of every size. Safe. -/
  memSize : Nat
deriving DecidableEq, Repr

/-- The reasons a step could stop with a fault of the model. There is none: every stop the spec describes is a halt
condition, which is a next state (60_exceptions.md R220, R224). Nothing raises one. -/
inductive Fault where
deriving DecidableEq, Repr

/-- The reasons a step could be refused. -/
inductive Refusal where
  /-- An instruction that has no meaning yet, raised by `exec`'s arm for it: none is left, so nothing raises it. Safe. -/
  | notModelled (mnemonic : String)
deriving DecidableEq, Repr

/-- The machine right after reset with the empty image (70_reset_and_hazards.md R250, R251): running, `pc` 0, every
register 0, every byte of memory 0, and `MEM_SIZE` at its reference value. -/
def State.reset : State where
  regs := Vector.replicate 32 0
  pc := Config.resetPc
  halted := false
  haltCause := .none
  mem := []
  memSize := Config.refMemSize

end Sys2Proof.Machine
end

