-- ==== Sys2Proof/Machine/Ops.lean ====
section
/-! DEFINITION. The named operations over registers, `pc` and memory (00_scope.md section 7, 20_memory.md), and the one
way the CPU stops: `State.raise` (60_exceptions.md R224). -/

namespace Sys2Proof.Machine

/-! ### Memory, byte by byte -/

/-- What a byte of memory that nothing has written reads as: 0 (10_state.md R21, 70_reset_and_hazards.md R251). -/
def Memory.unlisted : Byte := 0

/-- `mem[a]`: the byte at an address (10_state.md R21). -/
def Memory.read : Memory → Nat → Byte
  | [], _ => Memory.unlisted
  | (k, b) :: m, a => if k = a then b else Memory.read m a

/-- `mem[a] <- v`. The list keeps its canonical form: writing what an unlisted address reads as removes the entry. -/
def Memory.write : Memory → Nat → Byte → Memory
  | [], a, v => if v = Memory.unlisted then [] else [(a, v)]
  | (k, b) :: m, a, v =>
    if a < k then
      if v = Memory.unlisted then (k, b) :: m else (a, v) :: (k, b) :: m
    else if a = k then
      if v = Memory.unlisted then m else (a, v) :: m
    else (k, b) :: Memory.write m a v

/-- The canonical form: addresses strictly rising, and no entry equal to what an unlisted address reads as. -/
abbrev Memory.wf (m : Memory) : Prop :=
  m.Pairwise (fun p q => p.1 < q.1) ∧ ∀ p ∈ m, p.2 ≠ Memory.unlisted

/-- `MemRead(a, 4)`: the four bytes from `a`, little-endian (20_memory.md R36). -/
def Memory.readWord (m : Memory) (a : Nat) : Word :=
  wordOfBytes (m.read a) (m.read (a + 1)) (m.read (a + 2)) (m.read (a + 3))

/-- `MemWrite(a, 4, v)`: the four bytes from `a`, little-endian (20_memory.md R37). -/
def Memory.writeWord (m : Memory) (a : Nat) (v : Word) : Memory :=
  (((m.write a (byteOfWord v 0)).write (a + 1) (byteOfWord v 1)).write (a + 2) (byteOfWord v 2)).write (a + 3)
    (byteOfWord v 3)

/-! ### Registers and `pc` -/

/-- `x[r]`; register 0 is read like any other (10_state.md R11). -/
def State.reg (s : State) (r : RegIdx) : Word := s.regs.get r.toFin

/-- `x[r] <- v`; register 0 is written like any other (10_state.md R11). -/
def State.setReg (s : State) (r : RegIdx) (v : Word) : State := { s with regs := s.regs.set r.toNat v r.isLt }

/-- `pc <- target` (00_scope.md section 7). -/
def State.setPc (s : State) (target : Word) : State := { s with pc := target }

/-- The advance of `pc` by 4 between fetch and decode, modulo 2^32 (40_execution_loop.md R92, 10_state.md R17). -/
def State.advancePc (s : State) : State := s.setPc (s.pc + 4)

/-! ### Memory as the CPU reaches it -/

/-- The 4-byte access at `a` is in bounds: `a + 3 < MEM_SIZE` over the unbounded integers (20_memory.md R35, decision
D7). It is the only check made on an address (R34, R42). -/
abbrev State.inBounds (s : State) (a : Word) : Prop := a.toNat + 3 < s.memSize

/-- `MemRead(a, 4)` of an in-bounds address (20_memory.md R36). -/
def State.loadWord (s : State) (a : Word) : Word := s.mem.readWord a.toNat

/-- `MemWrite(a, 4, v)` of an in-bounds address (20_memory.md R37). -/
def State.storeWord (s : State) (a : Word) (v : Word) : State := { s with mem := s.mem.writeWord a.toNat v }

/-- Fetch: the word at `pc`, or `none` when that access is out of bounds (40_execution_loop.md R91). -/
def State.fetch (s : State) : Option Word := if s.inBounds s.pc then some (s.loadWord s.pc) else none

/-! ### Halting: this hardware's exception entry -/

/-- `raise <Condition>` and `halt Exit`: the step ends with `halted <- 1` and `halt_cause <- cause`, and nothing else is
written (00_scope.md section 7; 60_exceptions.md R222, R224). There is no return from it (R229): only a reset, which
builds a new state, starts the CPU again (70_reset_and_hazards.md R250). -/
def State.raise (s : State) (cause : HaltCause) : State := { s with halted := true, haltCause := cause }

/-- The numeric code of `halt_cause` (60_exceptions.md R221). -/
def HaltCause.code : HaltCause → BitVec 3
  | .none => 0
  | .exit => 1
  | .outOfBoundsFetch => 2
  | .outOfBoundsLoad => 3
  | .outOfBoundsStore => 4
  | .unimplementedInstruction => 5

end Sys2Proof.Machine
end

