-- ==== Sys2Proof/Machine/Flags.lean ====
section
/-! DEFINITION. The hardware has no flags, condition codes or predicates (10_state.md R22); this file holds the
arithmetic-logic unit (40_execution_loop.md R101), whose only condition, EQ, is kept nowhere. -/

namespace Sys2Proof.Machine

/-- The ALU's operations that return a word (40_execution_loop.md R101). -/
inductive AluOp where
  | add
  | sub
  | xor
  | pass
deriving DecidableEq, Repr

/-- The ALU: two 32-bit operands, one 32-bit result, no state and no flags (40_execution_loop.md R101, R102). -/
def alu (op : AluOp) (a b : Word) : Word :=
  match op with
  | .add => a + b
  | .sub => a - b
  | .xor => a ^^^ b
  | .pass => b

/-- The ALU's `EQ`: all 32 bits equal (40_execution_loop.md R101). -/
def aluEq (a b : Word) : Bool := a == b

end Sys2Proof.Machine
end

