-- ==== Sys2Proof/Machine/Operands.lean ====
section
/-! DEFINITION. The operand forms: the immediates as 32-bit values (30_encoding.md R64 to R68), the one addressing mode
(43_load_store.md R132) and the branch and jump target (44_control_transfer.md R140). -/

namespace Sys2Proof.Machine

/-- A 12-bit immediate, sign-extended: `u32(sext_12(imm))` (30_encoding.md R64, R65). -/
def immediate12 (imm : BitVec 12) : Word := imm.signExtend 32

/-- The value of the U-immediate: the field in bits 31:12, zeros below (30_encoding.md R67). -/
def immediateU (imm : BitVec 20) : Word := imm ++ 0#12

/-- A B-format byte offset, sign-extended (30_encoding.md R66). -/
def branchOffset (offset : BitVec 13) : Word := offset.signExtend 32

/-- A J-format byte offset, sign-extended (30_encoding.md R68). -/
def jumpOffset (offset : BitVec 21) : Word := offset.signExtend 32

/-- The effective address of `lw` and `sw`: base register plus displacement, modulo 2^32 (43_load_store.md R132). -/
def State.effectiveAddress (s : State) (base : RegIdx) (imm : BitVec 12) : Word :=
  alu .add (s.reg base) (immediate12 imm)

/-- `pc <- u32(pc + imm - 4)`: the offset applied to the already advanced `pc`, so that the target is the instruction's
own address plus the offset (44_control_transfer.md R140). -/
def State.target (s : State) (offset : Word) : Word := alu .add s.pc (offset - 4)

end Sys2Proof.Machine
end

