-- ==== Sys2Proof/Machine/ControlTransfer.lean ====
section
/-! DEFINITION. The branch and the jump (44_control_transfer.md). The target is checked neither for alignment nor for
bounds (R140). -/

namespace Sys2Proof.Machine

/-- `beq rs1,rs2` (R141). -/
def execBeq (rs1 rs2 : RegIdx) (offset : BitVec 13) (s : State) : Host.Outcome State Fault Refusal :=
  if aluEq (s.reg rs1) (s.reg rs2) then .next (s.setPc (s.target (branchOffset offset))) else .next s

/-- `jal rd,offset` (R143): the link value is the advanced `pc`, read before `pc` changes. -/
def execJal (rd : RegIdx) (offset : BitVec 21) (s : State) : Host.Outcome State Fault Refusal :=
  .next ((s.setReg rd (alu .pass 0 s.pc)).setPc (s.target (jumpOffset offset)))

end Sys2Proof.Machine
end

