-- ==== Sys2Proof/Machine/IntegerImmediate.lean ====
section
/-! DEFINITION. The integer instructions with an immediate (42_integer_immediate.md). -/

namespace Sys2Proof.Machine

/-- `addi rd,rs1,imm` (R120). -/
def execAddi (rd rs1 : RegIdx) (imm : BitVec 12) (s : State) : Host.Outcome State Fault Refusal :=
  .next (s.setReg rd (alu .add (s.reg rs1) (immediate12 imm)))

/-- `lui rd,imm` (R121). -/
def execLui (rd : RegIdx) (imm : BitVec 20) (s : State) : Host.Outcome State Fault Refusal :=
  .next (s.setReg rd (alu .pass 0 (immediateU imm)))

end Sys2Proof.Machine
end

