-- ==== Sys2Proof/Machine/IntegerRegister.lean ====
section
/-! DEFINITION. The register-register instructions (41_integer_register.md). A meaning acts on the state in which the
step has already advanced `pc` (40_execution_loop.md R92). -/

namespace Sys2Proof.Machine

/-- `add rd,rs1,rs2` (R110). -/
def execAdd (rd rs1 rs2 : RegIdx) (s : State) : Host.Outcome State Fault Refusal :=
  .next (s.setReg rd (alu .add (s.reg rs1) (s.reg rs2)))

/-- `sub rd,rs1,rs2` (R111). -/
def execSub (rd rs1 rs2 : RegIdx) (s : State) : Host.Outcome State Fault Refusal :=
  .next (s.setReg rd (alu .sub (s.reg rs1) (s.reg rs2)))

/-- `xor rd,rs1,rs2` (R112). -/
def execXor (rd rs1 rs2 : RegIdx) (s : State) : Host.Outcome State Fault Refusal :=
  .next (s.setReg rd (alu .xor (s.reg rs1) (s.reg rs2)))

/-- A word of opcode 0x33 that is none of the three: the execute stage changes nothing (30_encoding.md R78). -/
def execNoOperation (s : State) : Host.Outcome State Fault Refusal := .next s

end Sys2Proof.Machine
end

