-- ==== Sys2Proof/Machine/LoadStore.lean ====
section
/-! DEFINITION. The load and the store (43_load_store.md). The bounds test precedes the access, so an access out of bounds
writes no register and no byte (60_exceptions.md R226, decision D8). -/

namespace Sys2Proof.Machine

/-- `lw rd,imm(rs1)` (R130, R132). -/
def execLw (rd rs1 : RegIdx) (imm : BitVec 12) (s : State) : Host.Outcome State Fault Refusal :=
  let a := s.effectiveAddress rs1 imm
  if s.inBounds a then .next (s.setReg rd (s.loadWord a)) else .next (s.raise .outOfBoundsLoad)

/-- `sw rs2,imm(rs1)` (R131, R132). -/
def execSw (rs1 rs2 : RegIdx) (imm : BitVec 12) (s : State) : Host.Outcome State Fault Refusal :=
  let a := s.effectiveAddress rs1 imm
  if s.inBounds a then .next (s.storeWord a (s.reg rs2)) else .next (s.raise .outOfBoundsStore)

end Sys2Proof.Machine
end

