-- ==== Sys2Proof/Machine/System.lean ====
section
/-! DEFINITION. `ecall` (45_system.md), and the halt of a word the CPU does not implement (30_encoding.md R79, R80). -/

namespace Sys2Proof.Machine

/-- `ecall` (R150): halts when all 32 bits of `x[17]` are the exit code, otherwise does nothing. -/
def execEcall (s : State) : Host.Outcome State Fault Refusal :=
  if aluEq (s.reg Config.syscallReg) Config.exitCode then .next (s.raise .exit) else .next s

/-- A word outside the decode classes: halt with `UnimplementedInstruction` (30_encoding.md R79, R80). -/
def execUnimplemented (s : State) : Host.Outcome State Fault Refusal := .next (s.raise .unimplementedInstruction)

/-- A fetch out of bounds: halt with `OutOfBoundsFetch`, `pc` not advanced (40_execution_loop.md R91). -/
def execFetchOutOfBounds (s : State) : Host.Outcome State Fault Refusal := .next (s.raise .outOfBoundsFetch)

/-- A step asked of a halted CPU: nothing changes (40_execution_loop.md R97, decision D22). -/
def execHalted (s : State) : Host.Outcome State Fault Refusal := .next s

end Sys2Proof.Machine
end

