-- ==== Sys2Proof/Machine/Step.lean ====
section
/-! DEFINITION. The step (40_execution_loop.md R90 to R97), and the host's way to place the next instruction. -/

namespace Sys2Proof.Machine

/-- The execute stage for whatever decode gives (40_execution_loop.md R94). -/
def execDecoded (d : Decoded) (s : State) : Host.Outcome State Fault Refusal :=
  match d with
  | .instr i => exec i s
  | .noOperation => execNoOperation s
  | .branchUnimplemented => execUnimplemented s
  | .opcodeUnimplemented => execUnimplemented s

/-- One step: nothing when halted (R97); otherwise fetch (R91), advance `pc` (R92), decode (R93), execute (R94). -/
def step (s : State) : Host.Outcome State Fault Refusal :=
  if s.halted then execHalted s
  else
    match s.fetch with
    | none => execFetchOutOfBounds s
    | some w => execDecoded (decodeWord w) s.advancePc

/-- `s` with the instruction word of `w` stored where `step` fetches next, and with what that fetch needs: the CPU
running, and `pc` at the load base if it named no word (log entry 14). -/
def State.withFetchWord (s : State) (nbits w : Nat) : State :=
  let pc := if s.inBounds s.pc then s.pc else Config.resetPc
  { s with
    pc := pc, halted := false, haltCause := .none, mem := s.mem.writeWord pc.toNat (tableWord nbits w) }

end Sys2Proof.Machine
end

