-- ==== Sys2Proof/Machine/AsmText.lean ====
section
/-! DEFINITION. Assembly text: cleaning and classifying a line (47_assembler.md R190 to R193), mnemonics (R194), register
names (R196) and numbers (R197). Text is a list of characters. -/

namespace Sys2Proof.Machine

/-- A piece of source text. -/
abbrev Text := List Char

/-- White space: space, tab, carriage return, line feed, vertical tab, form feed (47_assembler.md R191, decision D20). -/
def isSpace (c : Char) : Bool :=
  c == ' ' || c == '\t' || c == '\r' || c == '\n' || c == Char.ofNat 11 || c == Char.ofNat 12

/-- The text without its leading and trailing white space. -/
def trim (t : Text) : Text := ((t.dropWhile isSpace).reverse.dropWhile isSpace).reverse

/-- A cleaned line: nothing from the first `#` on, and no white space around the rest (47_assembler.md R191). -/
def cleanLine (line : Text) : Text := trim (line.takeWhile (fun c => c != '#'))

/-- What a cleaned line is (47_assembler.md R191, R192). -/
inductive LineKind where
  /-- Nothing remains: skipped by both passes. -/
  | empty
  /-- A label definition with its name. -/
  | label (name : Text)
  /-- A directive: skipped by both passes. -/
  | directive
  /-- An instruction line: mnemonic and operand text (47_assembler.md R193). -/
  | instruction (mnemonic operandText : Text)
deriving DecidableEq, Repr

/-- The mnemonic: the characters before the first white space (47_assembler.md R193). -/
def mnemonicOf (line : Text) : Text := line.takeWhile (fun c => !isSpace c)

/-- The operand text: everything after the first run of white space (47_assembler.md R193). -/
def operandTextOf (line : Text) : Text := (line.dropWhile (fun c => !isSpace c)).dropWhile isSpace

/-- The kind of a cleaned line, by the tests of 47_assembler.md R192 in their order. -/
def classifyCleaned (line : Text) : LineKind :=
  if line = [] then .empty
  else if line.getLast? = some ':' then .label (trim line.dropLast)
  else if (mnemonicOf line).head? = some '.' then .directive
  else .instruction (mnemonicOf line) (operandTextOf line)

/-- The kind of a raw source line. -/
def classifyLine (line : Text) : LineKind := classifyCleaned (cleanLine line)

/-- The source text as its lines (47_assembler.md R190). -/
def sourceLines : Text → List Text
  | [] => []
  | c :: rest =>
    if c = '\n' then [] :: sourceLines rest
    else
      match sourceLines rest with
      | [] => [[c]]
      | line :: lines => (c :: line) :: lines

/-- The mnemonics, matched exactly, in lower case (47_assembler.md R194, decision D21). -/
def mnemonicOfText (t : Text) : Option Mnemonic :=
  if t = "add".toList then some .add
  else if t = "sub".toList then some .sub
  else if t = "xor".toList then some .xor
  else if t = "addi".toList then some .addi
  else if t = "lw".toList then some .lw
  else if t = "sw".toList then some .sw
  else if t = "beq".toList then some .beq
  else if t = "lui".toList then some .lui
  else if t = "jal".toList then some .jal
  else if t = "ecall".toList then some .ecall
  else none

/-- The value of a decimal digit. -/
def digitValue (c : Char) : Option Nat :=
  if 48 ≤ c.toNat ∧ c.toNat ≤ 57 then some (c.toNat - 48) else none

/-- The value of a run of decimal digits that follows a prefix of value `acc`. -/
def digitsValue (acc : Nat) : Text → Option Nat
  | [] => some acc
  | c :: rest =>
    match digitValue c with
    | some d => digitsValue (10 * acc + d) rest
    | none => none

/-- One or more decimal digits (47_assembler.md R196, R197). -/
def naturalOfText (t : Text) : Option Nat := if t = [] then none else digitsValue 0 t

/-- A number: an optional sign and decimal digits, of any size (47_assembler.md R197, decision D19). -/
def numberOfText (t : Text) : Option Int :=
  match t with
  | '-' :: rest => (naturalOfText rest).map (fun n => -(n : Int))
  | '+' :: rest => (naturalOfText rest).map (fun n => (n : Int))
  | _ => (naturalOfText t).map (fun n => (n : Int))

/-- The `xN` form: `x` and decimal digits of value 0 to 31 (47_assembler.md R196, decision D18). -/
def numberedRegister (t : Text) : Option RegIdx :=
  match t with
  | 'x' :: rest =>
    match naturalOfText rest with
    | some n => if n < 32 then some (BitVec.ofNat 5 n) else none
    | none => none
  | _ => none

/-- A register token: one of the five names or the `xN` form (47_assembler.md R196). -/
def registerOfText (t : Text) : Option RegIdx :=
  if t = "zero".toList then some 0
  else if t = "ra".toList then some 1
  else if t = "sp".toList then some 2
  else if t = "a0".toList then some 10
  else if t = "a7".toList then some 17
  else numberedRegister t

end Sys2Proof.Machine
end

