-- ==== Sys2Proof/Machine/Encoder.lean ====
section
/-! DEFINITION. The encoder block ENC (46_encoder.md): from a mnemonic, its operand text, the current address and the label
table to an instruction word or one named error. Parsing (47_assembler.md R195 to R199) and packing (46_encoder.md R163 to
R171) are kept apart (R160). -/

namespace Sys2Proof.Machine

/-- The assembly-time errors (46_encoder.md R172). None of them is a condition of the CPU (60_exceptions.md R231). -/
inductive AsmError where
  /-- The mnemonic is outside the set of ten (R161). -/
  | unsupportedMnemonic
  /-- A mnemonic other than `ecall` has empty operand text (R162). -/
  | missingOperands
  /-- The operand text does not have the mnemonic's shape (R162, 47_assembler.md R195). -/
  | syntaxError
  /-- A register token is none of the names (47_assembler.md R196). -/
  | unknownRegister
  /-- A `beq` names a label absent from the table (R168). -/
  | unresolvedLabel
  /-- A `beq` offset is below -4096, above 4094, or odd (R168). -/
  | branchRangeError
  /-- Pass 1 meets a label name already in the table (47_assembler.md R201). -/
  | duplicateLabel
deriving DecidableEq, Repr

/-- Label names with their addresses (47_assembler.md R200). An address is a natural number (log entry 11). -/
abbrev LabelTable := List (Text × Nat)

/-- The address of a label, by exact equality of names (47_assembler.md R198). -/
def LabelTable.find (table : LabelTable) (name : Text) : Option Nat := table.lookup name

/-- The result of parsing (47_assembler.md R199): register indices, an integer of any size as written, a label's address. -/
inductive Operation where
  | add (rd rs1 rs2 : RegIdx)
  | sub (rd rs1 rs2 : RegIdx)
  | xor (rd rs1 rs2 : RegIdx)
  | addi (rd rs1 : RegIdx) (imm : Int)
  | lw (rd : RegIdx) (imm : Int) (rs1 : RegIdx)
  | sw (rs2 : RegIdx) (imm : Int) (rs1 : RegIdx)
  | beq (rs1 rs2 : RegIdx) (labelAddress : Nat)
  | lui (rd : RegIdx) (imm : Int)
  | jal (rd : RegIdx) (imm : Int)
  | ecall
deriving DecidableEq, Repr

/-! ### Operand shapes (47_assembler.md R195) -/

/-- The text cut at every comma. -/
def splitAtCommas : Text → List Text
  | [] => [[]]
  | c :: rest =>
    match splitAtCommas rest with
    | [] => [[c]]
    | part :: parts => if c = ',' then [] :: part :: parts else (c :: part) :: parts

/-- The operand text cut at its commas, each operand without the white space around it (R195, decision D20). -/
def operands (t : Text) : List Text := (splitAtCommas t).map trim

/-- A label operand: not empty, no white space inside (R195; log entry 13). -/
def labelToken (t : Text) : Bool := !t.isEmpty && t.all (fun c => !isSpace c)

/-- A register operand has the shape of one: not empty, no white space and no parenthesis inside (R195; log entry 13). Which
register it names, if any, is tested later (R162). -/
def registerToken (t : Text) : Bool := labelToken t && t.all (fun c => c != '(' && c != ')')

/-- The operand `imm(rs1)`: the number, and the register's token (R195). -/
def memoryOperand (t : Text) : Option (Int × Text) :=
  match t.dropWhile (fun c => c != '(') with
  | [] => none
  | _ :: inside =>
    if inside.getLast? = some ')' ∧ registerToken (trim inside.dropLast) then
      (numberOfText (trim (t.takeWhile (fun c => c != '(')))).map (fun n => (n, trim inside.dropLast))
    else none

/-- The shape `rd,rs1,rs2`: three register tokens. -/
def shapeRRR (t : Text) : Option (Text × Text × Text) :=
  match operands t with
  | [a, b, c] => if registerToken a && registerToken b && registerToken c then some (a, b, c) else none
  | _ => none

/-- The shape `rd,rs1,imm`: two register tokens and a number. -/
def shapeRRI (t : Text) : Option (Text × Text × Int) :=
  match operands t with
  | [a, b, c] => if registerToken a && registerToken b then (numberOfText c).map (fun n => (a, b, n)) else none
  | _ => none

/-- The shape `rd,imm(rs1)` or `rs2,imm(rs1)`: a register token, a number, a register token. -/
def shapeRM (t : Text) : Option (Text × Int × Text) :=
  match operands t with
  | [a, b] => if registerToken a then (memoryOperand b).map (fun p => (a, p.1, p.2)) else none
  | _ => none

/-- The shape `rs1,rs2,label`: two register tokens and a label token. -/
def shapeRRL (t : Text) : Option (Text × Text × Text) :=
  match operands t with
  | [a, b, c] => if registerToken a && registerToken b && labelToken c then some (a, b, c) else none
  | _ => none

/-- The shape `rd,imm`: a register token and a number. -/
def shapeRI (t : Text) : Option (Text × Int) :=
  match operands t with
  | [a, b] => if registerToken a then (numberOfText b).map (fun n => (a, n)) else none
  | _ => none

/-! ### Parsing, shape by shape: a wrong shape is a `SyntaxError`, then registers, then the label (46_encoder.md R162) -/

/-- A register token's index, or `UnknownRegister` (47_assembler.md R196). -/
def parseRegister (t : Text) : Except AsmError RegIdx :=
  match registerOfText t with
  | some r => .ok r
  | none => .error .unknownRegister

/-- Operands of the shape `rd,rs1,rs2`. -/
def parseRRR (make : RegIdx → RegIdx → RegIdx → Operation) (t : Text) : Except AsmError Operation :=
  match shapeRRR t with
  | none => .error .syntaxError
  | some (a, b, c) => do
    let rd ← parseRegister a
    let rs1 ← parseRegister b
    let rs2 ← parseRegister c
    return make rd rs1 rs2

/-- Operands of the shape `rd,rs1,imm`. -/
def parseRRI (make : RegIdx → RegIdx → Int → Operation) (t : Text) : Except AsmError Operation :=
  match shapeRRI t with
  | none => .error .syntaxError
  | some (a, b, imm) => do
    let rd ← parseRegister a
    let rs1 ← parseRegister b
    return make rd rs1 imm

/-- Operands of the shape `rd,imm(rs1)`. -/
def parseRM (make : RegIdx → Int → RegIdx → Operation) (t : Text) : Except AsmError Operation :=
  match shapeRM t with
  | none => .error .syntaxError
  | some (a, imm, b) => do
    let r ← parseRegister a
    let rs1 ← parseRegister b
    return make r imm rs1

/-- Operands of the shape `rs1,rs2,label`. -/
def parseRRL (table : LabelTable) (t : Text) : Except AsmError Operation :=
  match shapeRRL t with
  | none => .error .syntaxError
  | some (a, b, name) => do
    let rs1 ← parseRegister a
    let rs2 ← parseRegister b
    match table.find name with
    | some address => return .beq rs1 rs2 address
    | none => .error .unresolvedLabel

/-- Operands of the shape `rd,imm`. -/
def parseRI (make : RegIdx → Int → Operation) (t : Text) : Except AsmError Operation :=
  match shapeRI t with
  | none => .error .syntaxError
  | some (a, imm) => do
    let rd ← parseRegister a
    return make rd imm

/-- The operands of a supported mnemonic, from the operand text as given: white space around an operand is dropped by its
shape (47_assembler.md R195, R199), and `ecall` takes no text at all, not even white space (46_encoder.md R162, R171). -/
def parseOperands (m : Mnemonic) (t : Text) (table : LabelTable) : Except AsmError Operation :=
  match m with
  | .add => parseRRR .add t
  | .sub => parseRRR .sub t
  | .xor => parseRRR .xor t
  | .addi => parseRRI .addi t
  | .lw => parseRM .lw t
  | .sw => parseRM .sw t
  | .beq => parseRRL table t
  | .lui => parseRI .lui t
  | .jal => parseRI .jal t
  | .ecall => if t = [] then .ok .ecall else .error .syntaxError

/-- The parse stage: the tests of 46_encoder.md R162 in their order, from the mnemonic to the label. For the nine
mnemonics other than `ecall`, operand text that is only white space counts as empty (R162). -/
def parse (mnemonic operandText : Text) (table : LabelTable) : Except AsmError Operation :=
  match mnemonicOfText mnemonic with
  | none => .error .unsupportedMnemonic
  | some m =>
    if m ≠ .ecall ∧ trim operandText = [] then .error .missingOperands
    else parseOperands m operandText table

/-! ### Packing (46_encoder.md R163 to R171) -/

/-- A field placed at a bit position: `v << at`. -/
def place {n : Nat} (v : BitVec n) (position : Nat) : Word := v.setWidth 32 <<< position

/-- `add`, `sub`, `xor` (R163). -/
def packR (funct7 : BitVec 7) (rs2 rs1 : RegIdx) (funct3 : BitVec 3) (rd : RegIdx) : Word :=
  place funct7 25 ||| place rs2 20 ||| place rs1 15 ||| place funct3 12 ||| place rd 7 ||| 0x33#32

/-- The reduction of a 12-bit immediate: the low 12 bits of the number (R167). -/
def reduce12 (imm : Int) : BitVec 12 := BitVec.ofInt 12 imm

/-- `addi` (R164). -/
def packAddi (rd rs1 : RegIdx) (imm : Int) : Word :=
  place (reduce12 imm) 20 ||| place rs1 15 ||| place 0x0#3 12 ||| place rd 7 ||| 0x13#32

/-- `lw` (R165). -/
def packLw (rd rs1 : RegIdx) (imm : Int) : Word :=
  place (reduce12 imm) 20 ||| place rs1 15 ||| place 0x2#3 12 ||| place rd 7 ||| 0x03#32

/-- `sw` (R166). -/
def packSw (rs2 rs1 : RegIdx) (imm : Int) : Word :=
  place ((reduce12 imm).extractLsb' 5 7) 25 ||| place rs2 20 ||| place rs1 15 ||| place 0x2#3 12
    ||| place ((reduce12 imm).extractLsb' 0 5) 7 ||| 0x23#32

/-- The offset a `beq` stores: the label's address minus the address of the instruction after the branch (R168). -/
def beqOffset (labelAddress currentAddress : Nat) : Int := (labelAddress : Int) - ((currentAddress : Int) + 4)

/-- The offsets a `beq` can store: -4096 to 4094, even (R168). -/
abbrev beqOffsetOk (offset : Int) : Prop := -4096 ≤ offset ∧ offset ≤ 4094 ∧ offset % 2 = 0

/-- `beq`, from an offset in range (R168). -/
def packBeq (rs1 rs2 : RegIdx) (offset : Int) : Word :=
  let imm13 := BitVec.ofInt 13 offset
  place (imm13.extractLsb' 12 1) 31 ||| place (imm13.extractLsb' 5 6) 25 ||| place rs2 20 ||| place rs1 15
    ||| place 0x0#3 12 ||| place (imm13.extractLsb' 1 4) 8 ||| place (imm13.extractLsb' 11 1) 7 ||| 0x63#32

/-- `lui` (R169). -/
def packLui (rd : RegIdx) (imm : Int) : Word := place (BitVec.ofInt 20 imm) 12 ||| place rd 7 ||| 0x37#32

/-- `jal` (R170). -/
def packJal (rd : RegIdx) (imm : Int) : Word :=
  let imm21 := BitVec.ofInt 21 imm
  place (imm21.extractLsb' 20 1) 31 ||| place (imm21.extractLsb' 1 10) 21 ||| place (imm21.extractLsb' 11 1) 20
    ||| place (imm21.extractLsb' 12 8) 12 ||| place rd 7 ||| 0x6F#32

/-- The pack stage (R163 to R171). -/
def pack (op : Operation) (currentAddress : Nat) : Except AsmError Word :=
  match op with
  | .add rd rs1 rs2 => .ok (packR 0x00#7 rs2 rs1 0x0#3 rd)
  | .sub rd rs1 rs2 => .ok (packR 0x20#7 rs2 rs1 0x0#3 rd)
  | .xor rd rs1 rs2 => .ok (packR 0x00#7 rs2 rs1 0x4#3 rd)
  | .addi rd rs1 imm => .ok (packAddi rd rs1 imm)
  | .lw rd imm rs1 => .ok (packLw rd rs1 imm)
  | .sw rs2 imm rs1 => .ok (packSw rs2 rs1 imm)
  | .beq rs1 rs2 labelAddress =>
    if beqOffsetOk (beqOffset labelAddress currentAddress) then
      .ok (packBeq rs1 rs2 (beqOffset labelAddress currentAddress))
    else .error .branchRangeError
  | .lui rd imm => .ok (packLui rd imm)
  | .jal rd imm => .ok (packJal rd imm)
  | .ecall => .ok 0x00000073#32

/-- The instruction a parsed line stands for: its immediate reduced to the field the format has (R167, R169, R170; for
`beq` the offset of R168). -/
def Operation.toInstr (op : Operation) (currentAddress : Nat) : Instr :=
  match op with
  | .add rd rs1 rs2 => .add rd rs1 rs2
  | .sub rd rs1 rs2 => .sub rd rs1 rs2
  | .xor rd rs1 rs2 => .xor rd rs1 rs2
  | .addi rd rs1 imm => .addi rd rs1 (reduce12 imm)
  | .lw rd imm rs1 => .lw rd rs1 (reduce12 imm)
  | .sw rs2 imm rs1 => .sw rs1 rs2 (reduce12 imm)
  | .beq rs1 rs2 labelAddress => .beq rs1 rs2 (BitVec.ofInt 13 (beqOffset labelAddress currentAddress))
  | .lui rd imm => .lui rd (BitVec.ofInt 20 imm)
  | .jal rd imm => .jal rd (BitVec.ofInt 21 (imm - imm % 2))
  | .ecall => .ecall

/-- The encoder block: parse, then pack (46_encoder.md R160). -/
def encodeLine (mnemonic operandText : Text) (currentAddress : Nat) (table : LabelTable) : Except AsmError Word := do
  let op ← parse mnemonic operandText table
  pack op currentAddress

end Sys2Proof.Machine
end

