-- ==== Sys2Proof/Machine/Assembler.lean ====
section
/-! DEFINITION. The assembler's two passes and the binary image (47_assembler.md R200 to R206). -/

namespace Sys2Proof.Machine

/-- Pass 1, from a running address and the table so far (47_assembler.md R200, R201): a label is recorded at the address of
the next instruction line, and only an instruction line advances the address. -/
def pass1From (address : Nat) (table : LabelTable) : List Text → Except AsmError LabelTable
  | [] => .ok table
  | line :: rest =>
    match classifyLine line with
    | .empty => pass1From address table rest
    | .directive => pass1From address table rest
    | .label name =>
      match table.find name with
      | some _ => .error .duplicateLabel
      | none => pass1From address (table ++ [(name, address)]) rest
    | .instruction _ _ => pass1From (address + 4) table rest

/-- Pass 1, the label resolver (47_assembler.md R200). -/
def pass1 (source : List Text) : Except AsmError LabelTable := pass1From Config.asmBase [] source

/-- Pass 2, from a running address (47_assembler.md R202): every instruction line is encoded at its own address, and the
first error ends the assembly with no word (R205). -/
def pass2From (table : LabelTable) (address : Nat) : List Text → Except AsmError (List Word)
  | [] => .ok []
  | line :: rest =>
    match classifyLine line with
    | .empty => pass2From table address rest
    | .directive => pass2From table address rest
    | .label _ => pass2From table address rest
    | .instruction mnemonic operandText =>
      match encodeLine mnemonic operandText address table with
      | .error e => .error e
      | .ok w =>
        match pass2From table (address + 4) rest with
        | .error e => .error e
        | .ok ws => .ok (w :: ws)

/-- Pass 2, the binary emitter (47_assembler.md R202). -/
def pass2 (table : LabelTable) (source : List Text) : Except AsmError (List Word) :=
  pass2From table Config.asmBase source

/-- The assembler: pass 1, then pass 2; the first error of either ends it (47_assembler.md R205). -/
def assemble (source : List Text) : Except AsmError (List Word) := do
  let table ← pass1 source
  pass2 table source

/-- The binary image of the words: four little-endian bytes each, nothing else (47_assembler.md R206). -/
def imageOf (words : List Word) : List Byte := words.flatMap bytesOfWord

/-- From source text to the image, or the first error and no image (47_assembler.md R205, R206). -/
def assembleText (source : Text) : Except AsmError (List Byte) := (assemble (sourceLines source)).map imageOf

/-! ### What an error is reported with (46_encoder.md R172) -/

/-- The first label line whose name was already defined, cleaned. -/
def pass1Offender (seen : List Text) : List Text → Option Text
  | [] => none
  | line :: rest =>
    match classifyLine line with
    | .empty => pass1Offender seen rest
    | .directive => pass1Offender seen rest
    | .label name => if name ∈ seen then some (cleanLine line) else pass1Offender (name :: seen) rest
    | .instruction _ _ => pass1Offender seen rest

/-- The first instruction line that does not encode at its address, cleaned: its mnemonic and operand text. -/
def pass2Offender (table : LabelTable) (address : Nat) : List Text → Option Text
  | [] => none
  | line :: rest =>
    match classifyLine line with
    | .empty => pass2Offender table address rest
    | .directive => pass2Offender table address rest
    | .label _ => pass2Offender table address rest
    | .instruction mnemonic operandText =>
      match encodeLine mnemonic operandText address table with
      | .error _ => some (cleanLine line)
      | .ok _ => pass2Offender table (address + 4) rest

/-- The line an assembly error is reported with; none when the assembly succeeds. -/
def offendingLine (source : List Text) : Option Text :=
  match pass1 source with
  | .error _ => pass1Offender [] source
  | .ok table => pass2Offender table Config.asmBase source

end Sys2Proof.Machine
end

