-- ==== Sys2Proof/Machine/Reference.lean ====
section
/-! DEFINITION. The whole step as 40_execution_loop.md R95 assembles it, transcribed on natural numbers and integers, with
none of the model's decoder, operands or ALU. `step` is the machine; this text is what it is held against. -/

namespace Sys2Proof.Machine

/-- `v[hi:lo]`, read as an unsigned integer (00_scope.md section 6). -/
def fieldValue (v : Word) (hi lo : Nat) : Nat := v.toNat / 2 ^ lo % 2 ^ (hi - lo + 1)

/-- `sext_N(v)`: the integer an N-bit pattern denotes in two's complement (00_scope.md section 7). -/
def sext (n v : Nat) : Int := if v < 2 ^ (n - 1) then v else (v : Int) - 2 ^ n

/-- `imm_i` (30_encoding.md R64). -/
def immIValue (w : Word) : Int := sext 12 (fieldValue w 31 20)

/-- `imm_s` (30_encoding.md R65). -/
def immSValue (w : Word) : Int := sext 12 (fieldValue w 31 25 * 2 ^ 5 + fieldValue w 11 7)

/-- `imm_b` (30_encoding.md R66). -/
def immBValue (w : Word) : Int :=
  sext 13 (fieldValue w 31 31 * 2 ^ 12 + fieldValue w 7 7 * 2 ^ 11 + fieldValue w 30 25 * 2 ^ 5
    + fieldValue w 11 8 * 2 ^ 1)

/-- `imm_u` (30_encoding.md R67). -/
def immUValue (w : Word) : Nat := fieldValue w 31 12 * 2 ^ 12

/-- `imm_j` (30_encoding.md R68). -/
def immJValue (w : Word) : Int :=
  sext 21 (fieldValue w 31 31 * 2 ^ 20 + fieldValue w 19 12 * 2 ^ 12 + fieldValue w 20 20 * 2 ^ 11
    + fieldValue w 30 21 * 2 ^ 1)

/-- `MemRead(a, 4)` as a sum of byte values (20_memory.md R36). -/
def memReadValue (m : Memory) (a : Nat) : Nat :=
  (m.read a).toNat + (m.read (a + 1)).toNat * 2 ^ 8 + (m.read (a + 2)).toNat * 2 ^ 16 + (m.read (a + 3)).toNat * 2 ^ 24

/-- `MemWrite(a, 4, v)`, byte by byte (20_memory.md R37). -/
def memWriteValue (m : Memory) (a : Nat) (v : Word) : Memory :=
  let m := m.write a (BitVec.ofNat 8 (fieldValue v 7 0))
  let m := m.write (a + 1) (BitVec.ofNat 8 (fieldValue v 15 8))
  let m := m.write (a + 2) (BitVec.ofNat 8 (fieldValue v 23 16))
  m.write (a + 3) (BitVec.ofNat 8 (fieldValue v 31 24))

/-- The state a step of a running CPU leads to, line by line as 40_execution_loop.md R95 writes it. -/
def referenceStep (s : State) : State :=
  let pcInstr := s.pc.toNat
  if ¬ pcInstr + 3 < s.memSize then s.raise .outOfBoundsFetch
  else
    let instr := BitVec.ofNat 32 (memReadValue s.mem pcInstr)
    let s := s.setPc (u32 (pcInstr + 4))
    let opcode := fieldValue instr 6 0
    let rd := BitVec.ofNat 5 (fieldValue instr 11 7)
    let funct3 := fieldValue instr 14 12
    let x1 := s.reg (BitVec.ofNat 5 (fieldValue instr 19 15))
    let x2 := s.reg (BitVec.ofNat 5 (fieldValue instr 24 20))
    let funct7 := fieldValue instr 31 25
    if opcode = 0x33 then
      if funct3 = 0 ∧ funct7 = 0x00 then s.setReg rd (u32 (x1.toNat + x2.toNat))
      else if funct3 = 0 ∧ funct7 = 0x20 then s.setReg rd (u32 (x1.toNat - x2.toNat))
      else if funct3 = 4 then s.setReg rd (x1 ^^^ x2)
      else s
    else if opcode = 0x13 then s.setReg rd (u32 (x1.toNat + immIValue instr))
    else if opcode = 0x03 then
      let a := (u32 (x1.toNat + immIValue instr)).toNat
      if ¬ a + 3 < s.memSize then s.raise .outOfBoundsLoad
      else s.setReg rd (BitVec.ofNat 32 (memReadValue s.mem a))
    else if opcode = 0x23 then
      let a := (u32 (x1.toNat + immSValue instr)).toNat
      if ¬ a + 3 < s.memSize then s.raise .outOfBoundsStore
      else { s with mem := memWriteValue s.mem a x2 }
    else if opcode = 0x63 then
      if funct3 = 0 then
        if x1 = x2 then s.setPc (u32 (s.pc.toNat + immBValue instr - 4)) else s
      else s.raise .unimplementedInstruction
    else if opcode = 0x37 then s.setReg rd (u32 (immUValue instr))
    else if opcode = 0x6F then
      let s' := s.setReg rd s.pc
      s'.setPc (u32 (s'.pc.toNat + immJValue instr - 4))
    else if opcode = 0x73 then
      if s.reg 17 = 10 then s.raise .exit else s
    else s.raise .unimplementedInstruction

end Sys2Proof.Machine
end

