-- ==== Sys2Proof/Machine/Boot.lean ====
section
/-! DEFINITION. `reset(image)`: reset with the binary image that is its argument (40_execution_loop.md R100,
70_reset_and_hazards.md R250, R251). -/

namespace Sys2Proof.Machine

/-- The bytes of a list placed one after another from an address up (70_reset_and_hazards.md R251, "loaded verbatim"). -/
def Memory.load (m : Memory) (a : Nat) : List Byte → Memory
  | [] => m
  | b :: bytes => Memory.load (m.write a b) (a + 1) bytes

/-- `reset(image)` on a CPU of a given `MEM_SIZE`: every piece of state at its reset value, the image from address 0,
zeros after it. It is defined for a size in the range of D3 and an image that fits (R251, decision D11), and refuses
(`none`) any other request. -/
def State.resetWith (memSize : Nat) (image : List Byte) : Option State :=
  if Config.memSizeOk memSize ∧ image.length ≤ memSize then
    some { State.reset with mem := Memory.load [] Config.loadBase image, memSize := memSize }
  else none

end Sys2Proof.Machine
end

