-- ==== Sys2Proof/Machine/Run.lean ====
section
/-! DEFINITION. The host around the CPU: the run loop with its step budget (40_execution_loop.md R98), the trace
(60_exceptions.md R232), what is observed (40_execution_loop.md R100) and the register report (60_exceptions.md R233). -/

namespace Sys2Proof.Machine

/-- The state after one step. A step always answers a next state (40_execution_loop.md R96, `step_answers_next`). -/
def State.after (s : State) : State :=
  match step s with
  | .next t => t
  | .fault _ => s
  | .refused _ => s

/-- The run loop with a budget of `n` steps: step until halted, at most `n` times (40_execution_loop.md R98). Running out of
budget sets no state. -/
def run : Nat → State → State
  | 0, s => s
  | n + 1, s => if s.halted then s else run n s.after

/-- What a step of `s` reports when `TRACE` is on: the address and the word of a successful fetch (60_exceptions.md R232,
decision D5). -/
def State.traceEntry (s : State) : Option (Word × Word) :=
  if s.halted then none else s.fetch.map (fun w => (s.pc, w))

/-- The pairs a run with a budget of `n` steps reports, oldest first; none when `TRACE` is off (60_exceptions.md R232). -/
def runTrace (trace : Bool) : Nat → State → List (Word × Word)
  | 0, _ => []
  | n + 1, s =>
    if s.halted || !trace then [] else s.traceEntry.toList ++ runTrace trace n s.after

/-- The end of a run: the first halted state, reached by some number of steps (40_execution_loop.md R99). -/
def EndsIn (s t : State) : Prop := ∃ n, run n s = t ∧ t.halted = true

/-- What `observe()` gives the host (40_execution_loop.md R100). -/
structure Observation where
  halted : Bool
  haltCause : HaltCause
  regs : List Word
  pc : Word
deriving DecidableEq, Repr

/-- `observe()` (40_execution_loop.md R100). -/
def State.observe (s : State) : Observation := ⟨s.halted, s.haltCause, s.regs.toList, s.pc⟩

/-- The register report on halt: the 32 values in index order, for every halt condition (60_exceptions.md R233). -/
def State.report (s : State) : Option (List Word) := if s.halted then some s.regs.toList else none

end Sys2Proof.Machine
end

