-- ==== Sys2Proof/Safety.lean ====
section
/-! DEFINITION. What counts as a proper end of a run, the invariant of the machine, and the words the statements use:
which registers an instruction reads and writes, and what a step leaves alone. -/

namespace Sys2Proof.Machine

/-- The four halt conditions that are faults (60_exceptions.md R220, R234). -/
def HaltCause.isFault : HaltCause → Bool
  | .none => false
  | .exit => false
  | .outOfBoundsFetch => true
  | .outOfBoundsLoad => true
  | .outOfBoundsStore => true
  | .unimplementedInstruction => true

/-- A run from `s` ends properly: it halts with `Exit` (40_execution_loop.md R99, 60_exceptions.md R234). -/
def EndsProperly (s : State) : Prop := ∃ t, EndsIn s t ∧ t.haltCause = .exit

/-- The invariant of the machine: memory in its canonical form and inside `MEM_SIZE` (10_state.md R21), `MEM_SIZE` in its
range (00_scope.md R3), and `halted = 0` exactly when `halt_cause = None` (10_state.md R20). -/
structure State.Inv (s : State) : Prop where
  memory : s.mem.wf
  memoryInside : ∀ p ∈ s.mem, p.1 < s.memSize
  memSize : Config.memSizeOk s.memSize
  halt : s.halted = false ↔ s.haltCause = .none

end Sys2Proof.Machine

namespace Sys2Proof

/-- The registers an instruction reads (10_state.md R13). -/
def Instr.reads : Instr → List RegIdx
  | .add _ rs1 rs2 => [rs1, rs2]
  | .sub _ rs1 rs2 => [rs1, rs2]
  | .xor _ rs1 rs2 => [rs1, rs2]
  | .addi _ rs1 _ => [rs1]
  | .lw _ rs1 _ => [rs1]
  | .sw rs1 rs2 _ => [rs1, rs2]
  | .beq rs1 rs2 _ => [rs1, rs2]
  | .lui _ _ => []
  | .jal _ _ => []
  | .ecall => [17]

/-- The register an instruction writes, if any (10_state.md R13). -/
def Instr.writes : Instr → List RegIdx
  | .add rd _ _ => [rd]
  | .sub rd _ _ => [rd]
  | .xor rd _ _ => [rd]
  | .addi rd _ _ => [rd]
  | .lw rd _ _ => [rd]
  | .sw _ _ _ => []
  | .beq _ _ _ => []
  | .lui rd _ => [rd]
  | .jal rd _ => [rd]
  | .ecall => []

/-- The instruction with its register operands renamed. -/
def Instr.rename (f : RegIdx → RegIdx) : Instr → Instr
  | .add rd rs1 rs2 => .add (f rd) (f rs1) (f rs2)
  | .sub rd rs1 rs2 => .sub (f rd) (f rs1) (f rs2)
  | .xor rd rs1 rs2 => .xor (f rd) (f rs1) (f rs2)
  | .addi rd rs1 imm => .addi (f rd) (f rs1) imm
  | .lw rd rs1 imm => .lw (f rd) (f rs1) imm
  | .sw rs1 rs2 imm => .sw (f rs1) (f rs2) imm
  | .beq rs1 rs2 offset => .beq (f rs1) (f rs2) offset
  | .lui rd imm => .lui (f rd) imm
  | .jal rd offset => .jal (f rd) offset
  | .ecall => .ecall

end Sys2Proof

namespace Sys2Proof.Machine

/-- Every byte of memory reads the same in both states. -/
def SameMemory (s t : State) : Prop := ∀ a, t.mem.read a = s.mem.read a

/-- Every register but those listed holds the same value in both states. -/
def SameRegsExcept (rs : List RegIdx) (s t : State) : Prop := ∀ r, r ∉ rs → t.reg r = s.reg r

/-- Neither halted bit, halt cause nor `MEM_SIZE` differs. -/
def SameControl (s t : State) : Prop :=
  t.halted = s.halted ∧ t.haltCause = s.haltCause ∧ t.memSize = s.memSize

/-- The register tokens of an operand text that has its mnemonic's shape, left to right; `none` when it has another shape
(47_assembler.md R195). -/
def registerTokens (m : Mnemonic) (t : Text) : Option (List Text) :=
  match m with
  | .add => (shapeRRR t).map (fun p => [p.1, p.2.1, p.2.2])
  | .sub => (shapeRRR t).map (fun p => [p.1, p.2.1, p.2.2])
  | .xor => (shapeRRR t).map (fun p => [p.1, p.2.1, p.2.2])
  | .addi => (shapeRRI t).map (fun p => [p.1, p.2.1])
  | .lw => (shapeRM t).map (fun p => [p.1, p.2.2])
  | .sw => (shapeRM t).map (fun p => [p.1, p.2.2])
  | .beq => (shapeRRL t).map (fun p => [p.1, p.2.1])
  | .lui => (shapeRI t).map (fun p => [p.1])
  | .jal => (shapeRI t).map (fun p => [p.1])
  | .ecall => if t = [] then some [] else none

/-- How many of the lines are instruction lines: the only ones that advance the address (47_assembler.md R200, R204). -/
def instructionCount (source : List Text) : Nat :=
  source.countP (fun line => match classifyLine line with | .instruction _ _ => true | _ => false)

/-- The instruction lines of a source as their mnemonics and operand texts, in order (47_assembler.md R202). -/
def instructionLines (source : List Text) : List (Text × Text) :=
  source.filterMap (fun line => match classifyLine line with | .instruction m t => some (m, t) | _ => none)

/-- The label names a source defines, in order (47_assembler.md R192). -/
def labelNames (source : List Text) : List Text :=
  source.filterMap (fun line => match classifyLine line with | .label name => some name | _ => none)

end Sys2Proof.Machine
end

