-- ==== Sys2Proof/Certificates/Slice0/Obligations.lean ====
section
/-! DEFINITION. The statements for the provers. Each docstring names the rules of the spec it formalises; a clause that rests
on a choice of the model says so. -/

open Sys2Proof Sys2Proof.Machine

/-! ### Encoding and decoding -/

/-- The ten words of 95_test_vectors.md S7, written from the spec's encodings, decode to the instructions they stand for.
Rests on PRESUMED log entry 8, bit positions and funct3 from general knowledge (G1 to G4). -/
def Obligations.SpecWordsDecode : Prop :=
  decodeWord 0x006283B3#32 = .instr (.add 7 5 6) ∧
  decodeWord 0x40628E33#32 = .instr (.sub 28 5 6) ∧
  decodeWord 0x0062CEB3#32 = .instr (.xor 29 5 6) ∧
  decodeWord 0xFFD00313#32 = .instr (.addi 6 0 (-3)) ∧
  decodeWord 0xFFC2A303#32 = .instr (.lw 6 5 (-4)) ∧
  decodeWord 0xFE62AE23#32 = .instr (.sw 5 6 (-4)) ∧
  decodeWord 0xFE008CE3#32 = .instr (.beq 1 0 (-8)) ∧
  decodeWord 0x12345537#32 = .instr (.lui 10 0x12345) ∧
  decodeWord 0xFF5FF0EF#32 = .instr (.jal 1 (-12)) ∧
  decodeWord 0x00000073#32 = .instr .ecall

/-- Decoding the canonical word of a well-formed instruction gives that instruction, with every operand at every value its
encoding admits (30_encoding.md R70, R77). Rests on PRESUMED log entry 8, bit positions and funct3 from general
knowledge (G1 to G4). -/
def Obligations.DecodeOfEncodeIsIdentity : Prop :=
  ∀ i : Instr, i.wf = true → decodeWord (encode i) = .instr i

/-- A canonical encoding of a row of the opcode table decodes to a well-formed instruction of that row, which encodes to
that very word: the encoder reaches every canonical encoding (30_encoding.md R70). Rests on PRESUMED log entry 8, bit
positions and funct3 from general knowledge (G1 to G4). -/
def Obligations.EncodeOfDecodeIsIdentityOnCanonicalWords : Prop :=
  ∀ (m : Mnemonic) (w : Word), m.canonical w →
    ∃ i : Instr, decodeWord w = .instr i ∧ i.wf = true ∧ i.mnemonic = m ∧ encode i = w

/-- The encoder emits a canonical encoding of its own row and of no other, and the canonical encodings of different rows
never overlap (30_encoding.md R70). Rests on PRESUMED log entry 8, bit positions and funct3 from general knowledge (G1
to G4). -/
def Obligations.CanonicalEncodingsDoNotOverlap : Prop :=
  (∀ (i : Instr) (m : Mnemonic), m.canonical (encode i) ↔ m = i.mnemonic) ∧
  (∀ (m m' : Mnemonic) (w : Word), m.canonical w → m'.canonical w → m = m')

/-- The decoder's field tests and the table's decode patterns and masks select the same words, class by class, and the three
classes that are no instruction are what is left of their opcodes (30_encoding.md R76, R78, R79, R80). Rests on DEDUCED
log entry 4, the fields examined (D9). -/
def Obligations.DecodeClassesMatchTheTable : Prop :=
  (∀ (w : Word) (m : Mnemonic), classify w = m.decodeClass ↔ m.executes w) ∧
  (∀ w : Word, classify w = .rUnrecognised ↔ opcode w = 0x33#7 ∧ ∀ m : Mnemonic, ¬ m.executes w) ∧
  (∀ w : Word, classify w = .bUnimplemented ↔ opcode w = 0x63#7 ∧ funct3 w ≠ 0#3) ∧
  (∀ w : Word, classify w = .unimplemented ↔
    opcode w ∉ [0x33#7, 0x13#7, 0x03#7, 0x23#7, 0x63#7, 0x37#7, 0x6F#7, 0x73#7])

/-- The five immediates of every word are the integers the spec's field formulas give, in the spec's ranges, the B and J
ones even (30_encoding.md R64 to R68). Rests on PRESUMED log entry 8, bit positions and funct3 from general knowledge
(G1 to G4). -/
def Obligations.ImmediatesAreTheFieldIntegers : Prop :=
  ∀ w : Word,
    ((immI w).toInt = immIValue w ∧ -2048 ≤ immIValue w ∧ immIValue w ≤ 2047) ∧
    ((immS w).toInt = immSValue w ∧ -2048 ≤ immSValue w ∧ immSValue w ≤ 2047) ∧
    ((immB w).toInt = immBValue w ∧ immBValue w % 2 = 0 ∧ -4096 ≤ immBValue w ∧ immBValue w ≤ 4094) ∧
    (immediateU (immU w) = w &&& 0xFFFFF000#32 ∧ (immediateU (immU w)).toNat = immUValue w) ∧
    ((immJ w).toInt = immJValue w ∧ immJValue w % 2 = 0 ∧ -1048576 ≤ immJValue w ∧ immJValue w ≤ 1048574)

/-! ### The step -/

/-- When the four bytes at `pc` are in bounds and decode to an instruction, a step of a running CPU is that instruction's
meaning on the state with `pc` advanced by 4 (40_execution_loop.md R91 to R94). Rests on DEDUCED log entry 6, the
unwrapped bound (D7) and no effect of a failing access (D8); DEDUCED log entry 7, sums modulo 2^32 (D6); DEDUCED log
entry 15, pc advanced before exec. -/
def Obligations.StepRunsTheDecodedInstruction : Prop :=
  ∀ (s : State) (i : Instr), s.halted = false → s.pc.toNat + 3 < s.memSize →
    decodeBytes [s.mem.read s.pc.toNat, s.mem.read (s.pc.toNat + 1), s.mem.read (s.pc.toNat + 2),
      s.mem.read (s.pc.toNat + 3)] = some (.instr i, []) →
    step s = exec i { s with pc := u32 ((s.pc.toNat : Int) + 4) }

/-- A step of a running CPU leads to the state that the assembled step of 40_execution_loop.md R95 computes, on natural
numbers and integers, from the fetched bytes on. Rests on DEDUCED log entry 4, the fields examined (D9); DEDUCED log
entry 5, the R-type no-operation (D10); DEDUCED log entry 6, the unwrapped bound (D7) and no effect of a failing access
(D8); DEDUCED log entry 7, sums modulo 2^32 (D6); PRESUMED log entry 8, bit positions and funct3 from general knowledge
(G1 to G4). -/
def Obligations.StepIsTheReferenceStep : Prop :=
  ∀ s : State, s.halted = false → step s = .next (referenceStep s)

/-- The step is total and deterministic: every state has exactly one next state, and no step faults or is refused
(40_execution_loop.md R96, which speaks of running states). That a halted state has a next state, itself, is the model's
reading of the spec's decision D22, where U16 allows a stuck state as well (DEDUCED log entry 3). -/
def Obligations.EveryStateHasExactlyOneNextState : Prop :=
  ∀ s : State, ∃! t : State, step s = .next t

/-- A fetch out of bounds halts with `OutOfBoundsFetch`, `pc` not advanced and nothing else changed; otherwise the fetched word
is the four bytes at `pc`, little-endian (40_execution_loop.md R91; that the bound does not wrap is the spec's decision D7,
DEDUCED log entry 6). -/
def Obligations.FetchBoundsAndWord : Prop :=
  (∀ s : State, s.halted = false → ¬ s.pc.toNat + 3 < s.memSize →
    step s = .next { s with halted := true, haltCause := .outOfBoundsFetch }) ∧
  (∀ s : State, s.pc.toNat + 3 < s.memSize →
    s.fetch = some (BitVec.ofNat 32 (memReadValue s.mem s.pc.toNat)))

/-- A halted CPU does not step: nothing changes, however often it is asked, and nothing is traced
(40_execution_loop.md R97, which rests on the spec's decision D22; DEDUCED log entry 3). -/
def Obligations.HaltedStepChangesNothing : Prop :=
  ∀ s : State, s.halted = true → step s = .next s ∧ ∀ n, run n s = s ∧ ∀ trace, runTrace trace n s = []

/-- What the words that RV32I and its extensions give other meanings do here, row by row of 30_encoding.md R81. Rests on
DEDUCED log entry 4, the fields examined (D9); DEDUCED log entry 5, the R-type no-operation (D10); DEDUCED log entry 7,
sums modulo 2^32 (D6). -/
def Obligations.ForeignWordsRunAsTheTableSays : Prop :=
  ∀ (s : State) (w : Word), s.halted = false → s.fetch = some w →
    let u : State := { s with pc := u32 ((s.pc.toNat : Int) + 4) }
    let stop : State := { u with halted := true, haltCause := .unimplementedInstruction }
    (opcode w = 0x13#7 → step s = exec (.addi (rdField w) (rs1Field w) (immI w)) u) ∧
    (opcode w = 0x03#7 → step s = exec (.lw (rdField w) (rs1Field w) (immI w)) u) ∧
    (opcode w = 0x23#7 → step s = exec (.sw (rs1Field w) (rs2Field w) (immS w)) u) ∧
    (opcode w = 0x33#7 → funct3 w = 4#3 → step s = exec (.xor (rdField w) (rs1Field w) (rs2Field w)) u) ∧
    (opcode w = 0x33#7 → funct3 w = 0#3 → funct7 w = 0x01#7 → step s = .next u) ∧
    (opcode w = 0x33#7 → funct3 w ∈ [1#3, 2#3, 3#3, 5#3, 6#3, 7#3] → step s = .next u) ∧
    (opcode w = 0x63#7 → funct3 w ≠ 0#3 → step s = .next stop) ∧
    (opcode w = 0x73#7 → step s = exec .ecall u) ∧
    (opcode w ∈ [0x17#7, 0x67#7, 0x0F#7] → step s = .next stop) ∧
    (¬ (w.getLsbD 0 = true ∧ w.getLsbD 1 = true) → step s = .next stop)

/-- An R-type word that is not ADD, SUB or XOR is a no-operation apart from the `pc` advance (30_encoding.md R78, which
rests on the spec's decision D10; DEDUCED log entry 5). Rests on DEDUCED log entry 7, sums modulo 2^32 (D6). -/
def Obligations.UnrecognisedRTypeIsNoOperation : Prop :=
  ∀ (s : State) (w : Word), s.halted = false → s.fetch = some w → opcode w = 0x33#7 →
    ((funct3 w = 0#3 ∧ funct7 w ≠ 0x00#7 ∧ funct7 w ≠ 0x20#7) ∨ funct3 w ∈ [1#3, 2#3, 3#3, 5#3, 6#3, 7#3]) →
    step s = .next { s with pc := u32 ((s.pc.toNat : Int) + 4) }

/-- Opcode 0x63 with another `funct3`, and every opcode outside the eight, halt with `UnimplementedInstruction`; only `pc`
has advanced (30_encoding.md R79, R80; 60_exceptions.md R226). Rests on DEDUCED log entry 7, sums modulo 2^32 (D6). -/
def Obligations.UnimplementedWordsHalt : Prop :=
  ∀ (s : State) (w : Word), s.halted = false → s.fetch = some w →
    ((opcode w = 0x63#7 ∧ funct3 w ≠ 0#3) ∨
      opcode w ∉ [0x33#7, 0x13#7, 0x03#7, 0x23#7, 0x63#7, 0x37#7, 0x6F#7, 0x73#7]) →
    step s = .next { s with pc := u32 ((s.pc.toNat : Int) + 4), halted := true,
                            haltCause := .unimplementedInstruction }

/-! ### The instructions: result and frame. `pc` has already been advanced (40_execution_loop.md R92). -/

/-- `add` writes the sum modulo 2^32 to `rd`, register 0 included, and changes nothing else (41_integer_register.md R110). -/
def Obligations.AddWritesTheSum : Prop :=
  (∀ w, opcode w = 0x33#7 → funct3 w = 0x0#3 → funct7 w = 0x00#7 →
    decodeWord w = .instr (.add (rdField w) (rs1Field w) (rs2Field w))) ∧
  (∀ rd rs1 rs2, encode (.add rd rs1 rs2) = formatR 0x00#7 rs2 rs1 0x0#3 rd 0x33#7) ∧
  ∀ (rd rs1 rs2 : RegIdx) (s : State), ∃ t, exec (.add rd rs1 rs2) s = .next t ∧
    t.reg rd = u32 ((s.reg rs1).toNat + (s.reg rs2).toNat) ∧
    SameRegsExcept [rd] s t ∧ SameMemory s t ∧ SameControl s t ∧ t.pc = s.pc

/-- `sub` writes `x[rs1]` minus `x[rs2]` modulo 2^32 to `rd` and changes nothing else (41_integer_register.md R111). -/
def Obligations.SubWritesTheDifference : Prop :=
  (∀ w, opcode w = 0x33#7 → funct3 w = 0x0#3 → funct7 w = 0x20#7 →
    decodeWord w = .instr (.sub (rdField w) (rs1Field w) (rs2Field w))) ∧
  (∀ rd rs1 rs2, encode (.sub rd rs1 rs2) = formatR 0x20#7 rs2 rs1 0x0#3 rd 0x33#7) ∧
  ∀ (rd rs1 rs2 : RegIdx) (s : State), ∃ t, exec (.sub rd rs1 rs2) s = .next t ∧
    t.reg rd = u32 ((s.reg rs1).toNat - (s.reg rs2).toNat) ∧
    SameRegsExcept [rd] s t ∧ SameMemory s t ∧ SameControl s t ∧ t.pc = s.pc

/-- `xor` writes the exclusive-or, bit by bit, to `rd` and changes nothing else (41_integer_register.md R112). That
its decode class takes any `funct7` is the spec's decision D9 (DEDUCED log entry 4). -/
def Obligations.XorWritesTheExclusiveOr : Prop :=
  (∀ w, opcode w = 0x33#7 → funct3 w = 0x4#3 →
    decodeWord w = .instr (.xor (rdField w) (rs1Field w) (rs2Field w))) ∧
  (∀ rd rs1 rs2, encode (.xor rd rs1 rs2) = formatR 0x00#7 rs2 rs1 0x4#3 rd 0x33#7) ∧
  ∀ (rd rs1 rs2 : RegIdx) (s : State), ∃ t, exec (.xor rd rs1 rs2) s = .next t ∧
    (∀ k, (t.reg rd).getLsbD k = ((s.reg rs1).getLsbD k ^^ (s.reg rs2).getLsbD k)) ∧
    SameRegsExcept [rd] s t ∧ SameMemory s t ∧ SameControl s t ∧ t.pc = s.pc

/-- `addi` writes the sum with the sign-extended immediate modulo 2^32 to `rd` and changes nothing else
(42_integer_immediate.md R120). That its decode class takes any `funct3` is the spec's decision D9 (DEDUCED log entry 4). -/
def Obligations.AddiWritesTheSum : Prop :=
  (∀ w, opcode w = 0x13#7 → decodeWord w = .instr (.addi (rdField w) (rs1Field w) (immI w))) ∧
  (∀ rd rs1 imm, encode (.addi rd rs1 imm) = formatI imm rs1 0x0#3 rd 0x13#7) ∧
  ∀ (rd rs1 : RegIdx) (imm : BitVec 12) (s : State), ∃ t, exec (.addi rd rs1 imm) s = .next t ∧
    t.reg rd = u32 ((s.reg rs1).toNat + imm.toInt) ∧
    SameRegsExcept [rd] s t ∧ SameMemory s t ∧ SameControl s t ∧ t.pc = s.pc

/-- `lui` writes the field to bits 31:12 of `rd` with zeros below, and changes nothing else (42_integer_immediate.md R121). -/
def Obligations.LuiWritesTheUpperImmediate : Prop :=
  (∀ w, opcode w = 0x37#7 → decodeWord w = .instr (.lui (rdField w) (immU w))) ∧
  (∀ rd imm, encode (.lui rd imm) = formatU imm rd 0x37#7) ∧
  ∀ (rd : RegIdx) (imm : BitVec 20) (s : State), ∃ t, exec (.lui rd imm) s = .next t ∧
    (t.reg rd).toNat = imm.toNat * 2 ^ 12 ∧
    SameRegsExcept [rd] s t ∧ SameMemory s t ∧ SameControl s t ∧ t.pc = s.pc

/-- The effective address of `lw` and `sw` is the base plus the sign-extended displacement modulo 2^32 (43_load_store.md
R132). Rests on DEDUCED log entry 7, sums modulo 2^32 (D6). -/
def Obligations.EffectiveAddressWraps : Prop :=
  ∀ (s : State) (base : RegIdx) (imm : BitVec 12),
    s.effectiveAddress base imm = u32 ((s.reg base).toNat + imm.toInt)

/-- `lw` in bounds writes the little-endian word at its address, aligned or not, to `rd` and changes nothing else; out of
bounds it halts with `OutOfBoundsLoad` and writes no register (43_load_store.md R130). That its decode class takes any
`funct3` is the spec's decision D9 (DEDUCED log entry 4); the unwrapped bound and the halt without effect are its D7 and
D8 (DEDUCED log entry 6). Rests on DEDUCED log entry 7, sums modulo 2^32 (D6). -/
def Obligations.LwLoadsOrHalts : Prop :=
  (∀ w, opcode w = 0x03#7 → decodeWord w = .instr (.lw (rdField w) (rs1Field w) (immI w))) ∧
  (∀ rd rs1 imm, encode (.lw rd rs1 imm) = formatI imm rs1 0x2#3 rd 0x03#7) ∧
  ∀ (rd rs1 : RegIdx) (imm : BitVec 12) (s : State),
    let a := s.effectiveAddress rs1 imm
    (a.toNat + 3 < s.memSize → ∃ t, exec (.lw rd rs1 imm) s = .next t ∧
      (t.reg rd).toNat = memReadValue s.mem a.toNat ∧
      SameRegsExcept [rd] s t ∧ SameMemory s t ∧ SameControl s t ∧ t.pc = s.pc) ∧
    (¬ a.toNat + 3 < s.memSize → ∃ t, exec (.lw rd rs1 imm) s = .next t ∧
      t.halted = true ∧ t.haltCause = .outOfBoundsLoad ∧
      SameRegsExcept [] s t ∧ SameMemory s t ∧ t.memSize = s.memSize ∧ t.pc = s.pc)

/-- `sw` in bounds stores the four bytes of `x[rs2]` little-endian at its address, and every other byte, every register and
everything else is unchanged; out of bounds it halts with `OutOfBoundsStore` and writes no byte (43_load_store.md R131).
The premise is the canonical form of memory (DESIGN CHOICE log entry 2), which every step keeps. The canonical `funct3`
0x2 is general knowledge (R71, G4, D12; PRESUMED log entry 8), the decode class with any `funct3` the spec's D9 (DEDUCED
log entry 4), and the unwrapped bound and the halt without effect its D7 and D8 (DEDUCED log entry 6). Rests on DEDUCED
log entry 7, sums modulo 2^32 (D6). -/
def Obligations.SwStoresOrHalts : Prop :=
  (∀ w, opcode w = 0x23#7 → decodeWord w = .instr (.sw (rs1Field w) (rs2Field w) (immS w))) ∧
  (∀ rs1 rs2 imm, encode (.sw rs1 rs2 imm) = formatS imm rs2 rs1 0x2#3 0x23#7) ∧
  ∀ (rs1 rs2 : RegIdx) (imm : BitVec 12) (s : State), s.mem.wf →
    let a := s.effectiveAddress rs1 imm
    (a.toNat + 3 < s.memSize → ∃ t, exec (.sw rs1 rs2 imm) s = .next t ∧
      (∀ k, k < 4 → (t.mem.read (a.toNat + k)).toNat = (s.reg rs2).toNat / 2 ^ (8 * k) % 2 ^ 8) ∧
      (∀ b, b < a.toNat ∨ a.toNat + 3 < b → t.mem.read b = s.mem.read b) ∧
      SameRegsExcept [] s t ∧ SameControl s t ∧ t.pc = s.pc) ∧
    (¬ a.toNat + 3 < s.memSize → ∃ t, exec (.sw rs1 rs2 imm) s = .next t ∧
      t.halted = true ∧ t.haltCause = .outOfBoundsStore ∧
      SameRegsExcept [] s t ∧ SameMemory s t ∧ t.memSize = s.memSize ∧ t.pc = s.pc)

/-- `beq` adds its offset minus 4 to the advanced `pc` when the two registers are equal on all 32 bits, leaves it otherwise,
and changes nothing else (44_control_transfer.md R141). The bit positions of the B format are general knowledge (G2;
PRESUMED log entry 8). Rests on DEDUCED log entry 7, sums modulo 2^32 (D6). -/
def Obligations.BeqBranchesOnEquality : Prop :=
  (∀ w, opcode w = 0x63#7 → funct3 w = 0x0#3 →
    decodeWord w = .instr (.beq (rs1Field w) (rs2Field w) (immB w))) ∧
  (∀ rs1 rs2 offset, encode (.beq rs1 rs2 offset) = formatB offset rs2 rs1 0x0#3 0x63#7) ∧
  ∀ (rs1 rs2 : RegIdx) (offset : BitVec 13) (s : State), ∃ t, exec (.beq rs1 rs2 offset) s = .next t ∧
    (s.reg rs1 = s.reg rs2 → t.pc = u32 ((s.pc.toNat : Int) + offset.toInt - 4)) ∧
    (s.reg rs1 ≠ s.reg rs2 → t.pc = s.pc) ∧
    SameRegsExcept [] s t ∧ SameMemory s t ∧ SameControl s t

/-- `jal` writes the advanced `pc` to `rd`, then adds its offset minus 4 to `pc`, and changes nothing else
(44_control_transfer.md R143). The bit positions of the J format are general knowledge (G3; PRESUMED log entry 8). Rests
on DEDUCED log entry 7, sums modulo 2^32 (D6). -/
def Obligations.JalLinksAndJumps : Prop :=
  (∀ w, opcode w = 0x6F#7 → decodeWord w = .instr (.jal (rdField w) (immJ w))) ∧
  (∀ rd offset, encode (.jal rd offset) = formatJ offset rd 0x6F#7) ∧
  ∀ (rd : RegIdx) (offset : BitVec 21) (s : State), ∃ t, exec (.jal rd offset) s = .next t ∧
    t.reg rd = s.pc ∧ t.pc = u32 ((s.pc.toNat : Int) + offset.toInt - 4) ∧
    SameRegsExcept [rd] s t ∧ SameMemory s t ∧ SameControl s t

/-- `ecall` halts with `Exit` when all 32 bits of `x[17]` are 10, and does nothing otherwise; registers, memory and `pc` are as
it found them (45_system.md R150). That all 32 bits are compared is the spec's decision D23; that every word of opcode 0x73 is
`ecall` is its D9 (DEDUCED log entry 4). -/
def Obligations.EcallExitsOnTen : Prop :=
  (∀ w, opcode w = 0x73#7 → decodeWord w = .instr .ecall) ∧
  encode .ecall = 0x00000073#32 ∧
  ∀ s : State, ∃ t, exec .ecall s = .next t ∧
    ((s.reg 17).toNat = 10 → t.halted = true ∧ t.haltCause = .exit) ∧
    ((s.reg 17).toNat ≠ 10 → t.halted = s.halted ∧ t.haltCause = s.haltCause) ∧
    SameRegsExcept [] s t ∧ SameMemory s t ∧ t.memSize = s.memSize ∧ t.pc = s.pc

/-- Counted from the instruction's own address, a taken `beq` and a `jal` go to that address plus their offset, with no check of
the target, odd only if that address is; a target out of bounds halts the next step's fetch and stays in `pc`
(44_control_transfer.md R140). The sum modulo 2^32 is the spec's decision D6 (DEDUCED log entry 7), the unwrapped bound its D7
(DEDUCED log entry 6). -/
def Obligations.TargetsAreRelativeToTheInstruction : Prop :=
  ∀ (s : State) (w : Word) (offset : Int), s.halted = false → s.fetch = some w →
    ((∃ rs1 rs2 o, decodeWord w = .instr (.beq rs1 rs2 o) ∧ s.reg rs1 = s.reg rs2 ∧ offset = o.toInt) ∨
      (∃ rd o, decodeWord w = .instr (.jal rd o) ∧ offset = o.toInt)) →
    ∃ t, step s = .next t ∧ t.halted = false ∧ t.pc = u32 ((s.pc.toNat : Int) + offset) ∧
      t.pc.toNat % 2 = s.pc.toNat % 2 ∧
      (¬ t.pc.toNat + 3 < t.memSize →
        step t = .next { t with halted := true, haltCause := .outOfBoundsFetch })

/-- Register 0 is an ordinary register: it is 0 after reset; every register, it included, reads as the value last written to it,
and `addi` with `rd` 0 writes it (10_state.md R11). -/
def Obligations.RegisterZeroIsOrdinary : Prop :=
  State.reset.reg 0 = 0 ∧
  (∀ (s : State) (r q : RegIdx) (v : Word), (s.setReg r v).reg q = if q = r then v else s.reg q) ∧
  (∀ (s : State) (rs1 : RegIdx) (imm : BitVec 12), ∃ t, exec (.addi 0 rs1 imm) s = .next t ∧
    t.reg 0 = u32 ((s.reg rs1).toNat + imm.toInt))

/-- The ALU's word operations modulo 2^32, the same for unsigned and signed readings of the operands, and its equality of
all 32 bits (40_execution_loop.md R101, R102). Rests on DEDUCED log entry 7, sums modulo 2^32 (D6). -/
def Obligations.AluIsModularAndSignless : Prop :=
  ∀ a b : Word,
    alu .add a b = u32 ((a.toNat : Int) + b.toNat) ∧ alu .add a b = u32 (a.toInt + b.toInt) ∧
    alu .sub a b = u32 ((a.toNat : Int) - b.toNat) ∧ alu .sub a b = u32 (a.toInt - b.toInt) ∧
    (∀ k, (alu .xor a b).getLsbD k = (a.getLsbD k ^^ b.getLsbD k)) ∧
    alu .pass a b = b ∧ (aluEq a b = true ↔ a.toNat = b.toNat) ∧
    alu .xor a a = 0 ∧ alu .xor a 0 = a ∧ alu .xor a 0xFFFFFFFF#32 = ~~~a

/-! ### Frames and interference over all instructions -/

/-- An instruction changes no register but the one 10_state.md R13 lists as written, whatever it does otherwise. Rests on
DEDUCED log entry 6, the unwrapped bound (D7) and no effect of a failing access (D8). -/
def Obligations.OnlyListedRegistersAreWritten : Prop :=
  ∀ (i : Instr) (s t : State), exec i s = .next t → SameRegsExcept i.writes s t

/-- A register that an instruction does not read (10_state.md R13) has no influence on it: with any other value there, the
instruction leads to the same memory, `pc`, halt state and registers, but for that register itself, which ends with the same
value as before the change if it is written, and keeps its own if it is not. -/
def Obligations.UnlistedRegistersAreNotRead : Prop :=
  ∀ (i : Instr) (s t : State) (r : RegIdx) (v : Word), r ∉ i.reads → exec i s = .next t →
    ∃ t', exec i (s.setReg r v) = .next t' ∧ t'.mem = t.mem ∧ t'.pc = t.pc ∧ SameControl t t' ∧
      SameRegsExcept [r] t t' ∧ (t'.reg r = t.reg r ∨ (t'.reg r = v ∧ t.reg r = s.reg r)) ∧
      (r ∉ i.writes → t'.reg r = v)

/-- The registers are interchangeable, register 0 included, but for register 17, which `ecall` reads: renaming the registers of
an instruction and of the state by any injection that keeps 17 renames the result (10_state.md R11, R12). -/
def Obligations.RegistersAreInterchangeable : Prop :=
  ∀ (f : RegIdx → RegIdx), Function.Injective f → f 17 = 17 →
    ∀ s t : State, (∀ r, t.reg (f r) = s.reg r) → t.pc = s.pc → t.mem = s.mem → SameControl s t →
      ∀ (i : Instr) (s' : State), exec i s = .next s' →
        ∃ t', exec (i.rename f) t = .next t' ∧ (∀ r, t'.reg (f r) = s'.reg r) ∧ t'.pc = s'.pc ∧ t'.mem = s'.mem ∧
          SameControl s' t'

/-- Memory changes only in a step that executes `sw` in bounds, and only at the four bytes from its effective address
(10_state.md section 1: `mem` is written by `sw`; 60_exceptions.md R226). That a `sw` out of bounds writes no byte is
the spec's decision D8, the unwrapped bound its D7 (DEDUCED log entry 6). Rests on DESIGN CHOICE log entry 2, the
canonical form of memory; DEDUCED log entry 3, a step asked of a halted CPU (D22; U16 allows a stuck state). -/
def Obligations.OnlySwChangesMemory : Prop :=
  ∀ (s t : State) (b : Nat), s.mem.wf → step s = .next t → t.mem.read b ≠ s.mem.read b →
    s.halted = false ∧ ∃ w rs1 rs2 imm, s.fetch = some w ∧ decodeWord w = .instr (.sw rs1 rs2 imm) ∧
      (s.effectiveAddress rs1 imm).toNat + 3 < s.memSize ∧
      (s.effectiveAddress rs1 imm).toNat ≤ b ∧ b ≤ (s.effectiveAddress rs1 imm).toNat + 3

/-- No step changes the parameter `MEM_SIZE` (10_state.md R24; carried in State by DESIGN CHOICE log entry 1). -/
def Obligations.StepKeepsMemSize : Prop :=
  ∀ s t : State, step s = .next t → t.memSize = s.memSize

/-! ### Halting -/

/-- What a halt leaves: registers and memory as before the step, and `pc` unchanged after a fetch out of bounds and advanced
by 4 after every other condition (60_exceptions.md R226; that a halting `lw` or `sw` has no effect is the spec's
decision D8, DEDUCED log entry 6). Rests on DEDUCED log entry 7, sums modulo 2^32 (D6). -/
def Obligations.HaltingStepLeavesRegistersAndMemory : Prop :=
  ∀ s t : State, s.halted = false → step s = .next t → t.halted = true →
    SameRegsExcept [] s t ∧ SameMemory s t ∧ t.memSize = s.memSize ∧
    ((t.haltCause = .outOfBoundsFetch ∧ t.pc = s.pc) ∨
      (t.haltCause ∈ [.unimplementedInstruction, .outOfBoundsLoad, .outOfBoundsStore, .exit] ∧
        t.pc = u32 ((s.pc.toNat : Int) + 4)))

/-- The CPU halts for exactly five reasons, each in exactly the circumstances of 60_exceptions.md R220, from a running state
whose `halt_cause` is `None` (the invariant of 10_state.md R20). Its tests of the opcode alone are the spec's decision
D9 (DEDUCED log entry 4), the unwrapped bound its D7 (DEDUCED log entry 6), the S-immediate's positions G1 (PRESUMED log
entry 8). Rests on DEDUCED log entry 7, sums modulo 2^32 (D6). -/
def Obligations.HaltConditionsAreExactlyFive : Prop :=
  ∀ s t : State, s.halted = false → s.haltCause = .none → step s = .next t →
    let w := BitVec.ofNat 32 (memReadValue s.mem s.pc.toNat)
    let fetched := s.pc.toNat + 3 < s.memSize
    (t.haltCause = .outOfBoundsFetch ↔ ¬ fetched) ∧
    (t.haltCause = .unimplementedInstruction ↔ fetched ∧
      (opcode w ∉ [0x33#7, 0x13#7, 0x03#7, 0x23#7, 0x63#7, 0x37#7, 0x6F#7, 0x73#7] ∨
        (opcode w = 0x63#7 ∧ funct3 w ≠ 0#3))) ∧
    (t.haltCause = .outOfBoundsLoad ↔ fetched ∧ opcode w = 0x03#7 ∧
      ¬ (u32 ((s.reg (rs1Field w)).toNat + immIValue w)).toNat + 3 < s.memSize) ∧
    (t.haltCause = .outOfBoundsStore ↔ fetched ∧ opcode w = 0x23#7 ∧
      ¬ (u32 ((s.reg (rs1Field w)).toNat + immSValue w)).toNat + 3 < s.memSize) ∧
    (t.haltCause = .exit ↔ fetched ∧ opcode w = 0x73#7 ∧ s.reg 17 = 10) ∧
    (t.halted = true ↔ t.haltCause ≠ .none)

/-! ### Invariants -/

/-- Every step keeps the invariant of the machine: canonical memory inside `MEM_SIZE`, `MEM_SIZE` in its range, and `halted
= 0` exactly when `halt_cause = None` (10_state.md R20, R21; the canonical form is the model's own, DESIGN CHOICE log
entry 2). Rests on DESIGN CHOICE log entry 1, MEM_SIZE carried in the state; DEDUCED log entry 3, a step asked of a
halted CPU (D22; U16 allows a stuck state); DEDUCED log entry 6, the unwrapped bound (D7) and no effect of a failing
access (D8). -/
def Obligations.EveryStepKeepsTheInvariant : Prop :=
  ∀ s t : State, s.Inv → step s = .next t → t.Inv

/-- The invariant holds after reset, for the empty image and for every image and `MEM_SIZE` the reset accepts. Rests on
DESIGN CHOICE log entry 1, MEM_SIZE carried in the state; DESIGN CHOICE log entry 2, the canonical form of memory;
DESIGN CHOICE log entry 10, the domain of reset (D3, D11). -/
def Obligations.ResetMeetsTheInvariant : Prop :=
  State.reset.Inv ∧
  ∀ (memSize : Nat) (image : List Byte) (s : State), State.resetWith memSize image = some s → s.Inv

/-- The `pc` stays even: branch and jump offsets are even by construction (10_state.md R17). Rests on DEDUCED log entry 3, a
step asked of a halted CPU (D22; U16 allows a stuck state); DEDUCED log entry 7, sums modulo 2^32 (D6). -/
def Obligations.EveryStepKeepsThePcEven : Prop :=
  ∀ s t : State, s.pc.toNat % 2 = 0 → step s = .next t → t.pc.toNat % 2 = 0

/-! ### Memory -/

/-- A word reads as the bytes at its four addresses composed little-endian (20_memory.md R36), and writing a word sets those
four bytes and no other (20_memory.md R37; the premise is the canonical form, DESIGN CHOICE log entry 2). -/
def Obligations.WordAccessIsFourLittleEndianBytes : Prop :=
  (∀ (m : Memory) (a : Nat), m.readWord a =
    (m.read a).setWidth 32 ||| ((m.read (a + 1)).setWidth 32 <<< 8) ||| ((m.read (a + 2)).setWidth 32 <<< 16)
      ||| ((m.read (a + 3)).setWidth 32 <<< 24)) ∧
  (∀ (m : Memory) (a : Nat) (v : Word), m.wf →
    (m.writeWord a v).read a = v.extractLsb' 0 8 ∧ (m.writeWord a v).read (a + 1) = v.extractLsb' 8 8 ∧
    (m.writeWord a v).read (a + 2) = v.extractLsb' 16 8 ∧ (m.writeWord a v).read (a + 3) = v.extractLsb' 24 8 ∧
    ∀ b, b < a ∨ a + 3 < b → (m.writeWord a v).read b = m.read b)

/-- Memories in canonical form that read the same everywhere are equal data (DESIGN CHOICE log entry 2), so that storing the
same word twice leaves the memory of storing it once (20_memory.md R40). -/
def Obligations.EqualReadsAreEqualMemories : Prop :=
  (∀ m m' : Memory, m.wf → m'.wf → (∀ a, m.read a = m'.read a) → m = m') ∧
  (∀ (m : Memory) (a : Nat) (v : Word), m.wf → (m.writeWord a v).writeWord a v = m.writeWord a v)

/-- A store over the next instruction is seen by the very next step: a `sw` to the address after it makes the following step
execute the stored word (20_memory.md R46). Rests on DESIGN CHOICE log entry 2, the canonical form of memory; DEDUCED
log entry 6, the unwrapped bound (D7) and no effect of a failing access (D8); DEDUCED log entry 7, sums modulo 2^32
(D6). -/
def Obligations.StoreOverTheNextInstructionIsExecuted : Prop :=
  ∀ (s : State) (w : Word) (rs1 rs2 : RegIdx) (imm : BitVec 12), s.mem.wf → s.halted = false → s.fetch = some w →
    decodeWord w = .instr (.sw rs1 rs2 imm) → s.effectiveAddress rs1 imm = s.pc + 4 → (s.pc + 4).toNat + 3 < s.memSize →
    ∃ t, step s = .next t ∧ t.fetch = some (s.reg rs2) ∧
      step t = execDecoded (decodeWord (s.reg rs2)) { t with pc := s.pc + 8 }

/-! ### Reset and the run -/

/-- Reset is defined for exactly the images that fit, and gives every piece of state its reset value: `pc` 0, running, no halt
cause, every register 0, the image from address 0 and zeros everywhere else (70_reset_and_hazards.md R250, R251;
10_state.md R14, R18 to R21). That a longer image is refused is the spec's decision D11 (DESIGN CHOICE log entry 10). -/
def Obligations.ResetLoadsTheImage : Prop :=
  ∀ (memSize : Nat) (image : List Byte), 4 ≤ memSize → memSize ≤ 2 ^ 32 →
    (image.length ≤ memSize → ∃ s, State.resetWith memSize image = some s ∧
      s.memSize = memSize ∧ s.pc = 0 ∧ s.halted = false ∧ s.haltCause = .none ∧ (∀ r, s.reg r = 0) ∧
      (∀ (a : Nat) (h : a < image.length), s.mem.read a = image[a]) ∧
      (∀ a, image.length ≤ a → s.mem.read a = 0)) ∧
    (memSize < image.length → State.resetWith memSize image = none)

/-- Running past the end of the program halts: when memory from `pc` on is zero, the step fetches the zero word and halts
with `UnimplementedInstruction`, `pc` 4 past the end (70_reset_and_hazards.md R264). Rests on DEDUCED log entry 7, sums
modulo 2^32 (D6). -/
def Obligations.RunningPastTheImageHalts : Prop :=
  ∀ s : State, s.halted = false → s.pc.toNat + 3 < s.memSize → (∀ a, s.pc.toNat ≤ a → s.mem.read a = 0) →
    step s = .next { s with pc := s.pc + 4, halted := true, haltCause := .unimplementedInstruction }

/-- A run with a budget of `m + n` steps is a run of `m` and then of `n`; a run that is still running has taken every step
of its budget and has no halt cause: running out of budget sets no state (40_execution_loop.md R98). Rests on DEDUCED
log entry 3, a step asked of a halted CPU (D22; U16 allows a stuck state); DESIGN CHOICE log entry 9, the form of the
run and the trace (D4, D5). -/
def Obligations.RunSplitsAtAnyBudget : Prop :=
  (∀ (m n : Nat) (s : State), run (m + n) s = run n (run m s)) ∧
  (∀ (n : Nat) (s : State), (run n s).halted = false → run n s = State.after^[n] s) ∧
  (∀ (n : Nat) (s : State), s.Inv → (run n s).halted = false → (run n s).haltCause = .none)

/-- A run has at most one end, and every run keeps the invariant of the machine (40_execution_loop.md R96, R99). Rests on
DESIGN CHOICE log entry 2, the canonical form of memory; DEDUCED log entry 3, a step asked of a halted CPU (D22; U16
allows a stuck state); DESIGN CHOICE log entry 9, the form of the run and the trace (D4, D5). -/
def Obligations.TheEndOfARunIsUnique : Prop :=
  (∀ s t t' : State, EndsIn s t → EndsIn s t' → t = t') ∧
  (∀ (n : Nat) (s : State), s.Inv → (run n s).Inv)

/-- When `TRACE` is on, every step that fetches reports the address and the word, and a step that halts with
`OutOfBoundsFetch` reports nothing; when it is off, nothing is reported (60_exceptions.md R232). Rests on DESIGN CHOICE
log entry 9, the form of the run and the trace (D4, D5). -/
def Obligations.TraceReportsEveryFetch : Prop :=
  (∀ (n : Nat) (s : State) (w : Word), s.halted = false → s.fetch = some w →
    runTrace true (n + 1) s = (s.pc, w) :: runTrace true n s.after) ∧
  (∀ (n : Nat) (s : State), s.fetch = none → runTrace true n s = []) ∧
  (∀ (n : Nat) (s : State), runTrace false n s = [])

/-- On every halt the full register file is reported: 32 values in index order, register 0 included (60_exceptions.md
R233). -/
def Obligations.ReportIsTheRegisterFile : Prop :=
  ∀ s : State, s.halted = true → ∃ l, s.report = some l ∧ l.length = 32 ∧
    ∀ r : RegIdx, l[r.toNat]? = some (s.reg r)

/-! ### The encoder block -/

/-- Packing by the shifts and ors of 46_encoder.md R163 to R171 gives the canonical word of the instruction whose immediate
is reduced to its field; it fails exactly for a `beq` offset out of range or odd, with `BranchRangeError`. Rests on
PRESUMED log entry 8, bit positions and funct3 from general knowledge (G1 to G4); DESIGN CHOICE log entry 11, addresses
as natural numbers, never wrapping. -/
def Obligations.PackIsEncodeOfTheReducedInstruction : Prop :=
  ∀ (op : Operation) (address : Nat),
    (∃ rs1 rs2 l, op = .beq rs1 rs2 l ∧ ¬ beqOffsetOk (beqOffset l address) ∧
      pack op address = .error .branchRangeError) ∨
    ((∀ rs1 rs2 l, op = .beq rs1 rs2 l → beqOffsetOk (beqOffset l address)) ∧
      (op.toInstr address).wf = true ∧ pack op address = .ok (encode (op.toInstr address)))

/-- Round trip: the decoder puts every canonical encoding of a mnemonic in that mnemonic's class, and reads from a packed
word the register indices and the reduced immediate that were packed (30_encoding.md R77). Rests on DEDUCED log entry 4,
the fields examined (D9); PRESUMED log entry 8, bit positions and funct3 from general knowledge (G1 to G4); DESIGN
CHOICE log entry 11, addresses as natural numbers, never wrapping. -/
def Obligations.PackedWordsDecodeToTheirOperands : Prop :=
  (∀ (m : Mnemonic) (w : Word), m.canonical w → classify w = m.decodeClass) ∧
  (∀ (op : Operation) (address : Nat) (w : Word), pack op address = .ok w →
    decodeWord w = .instr (op.toInstr address))

/-- A `beq` packs exactly when its offset, the label's address minus the address of the next instruction, is even and in
-4096 to 4094, and the decoder then reads that very offset back (46_encoder.md R168). Rests on PRESUMED log entry 8, bit
positions and funct3 from general knowledge (G1 to G4); DESIGN CHOICE log entry 11, addresses as natural numbers, never
wrapping. -/
def Obligations.BeqStoresTheOffsetFromTheNextInstruction : Prop :=
  ∀ (rs1 rs2 : RegIdx) (label address : Nat),
    let offset : Int := (label : Int) - ((address : Int) + 4)
    ((-4096 ≤ offset ∧ offset ≤ 4094 ∧ offset % 2 = 0) →
      ∃ w, pack (.beq rs1 rs2 label) address = .ok w ∧ (immB w).toInt = offset ∧
        rs1Field w = rs1 ∧ rs2Field w = rs2) ∧
    (¬ (-4096 ≤ offset ∧ offset ≤ 4094 ∧ offset % 2 = 0) →
      pack (.beq rs1 rs2 label) address = .error .branchRangeError)

/-- Immediates are reduced without error: `addi`, `lw` and `sw` keep the low 12 bits of the number written (46_encoder.md
R167), `lui` the low 20 (R169), `jal` the low 21 without bit 0 (R170). Rests on PRESUMED log entry 8, bit positions and
funct3 from general knowledge (G1 to G4). -/
def Obligations.ImmediatesAreReducedWithoutError : Prop :=
  ∀ (r r' : RegIdx) (imm : Int) (address : Nat),
    (∃ w, pack (.addi r r' imm) address = .ok w ∧ ((immI w).toNat : Int) = imm % 2 ^ 12) ∧
    (∃ w, pack (.lw r imm r') address = .ok w ∧ ((immI w).toNat : Int) = imm % 2 ^ 12) ∧
    (∃ w, pack (.sw r imm r') address = .ok w ∧ ((immS w).toNat : Int) = imm % 2 ^ 12) ∧
    (∃ w, pack (.lui r imm) address = .ok w ∧ ((immU w).toNat : Int) = imm % 2 ^ 20) ∧
    (∃ w, pack (.jal r imm) address = .ok w ∧ ((immJ w).toNat : Int) = imm % 2 ^ 21 - imm % 2)

/-- A `beq` packed for a label and taken where it was assembled lands 4 bytes before the label: the encoder counts the
offset from the next instruction, the CPU from the branch itself (44_control_transfer.md R142). Rests on DEDUCED log
entry 7, sums modulo 2^32 (D6); PRESUMED log entry 8, bit positions and funct3 from general knowledge (G1 to G4); DESIGN
CHOICE log entry 11, addresses as natural numbers, never wrapping. -/
def Obligations.AssembledBeqLandsFourBytesBeforeItsLabel : Prop :=
  ∀ (s : State) (rs1 rs2 : RegIdx) (label address : Nat) (w : Word),
    pack (.beq rs1 rs2 label) address = .ok w → s.halted = false → s.pc = BitVec.ofNat 32 address →
    s.fetch = some w → s.reg rs1 = s.reg rs2 →
    step s = .next { s with pc := u32 ((label : Int) - 4) }

/-- The encoder accepts only the ten mnemonics and emits only canonical encodings of the mnemonic it was given
(46_encoder.md R161, R173). Rests on PRESUMED log entry 8, bit positions and funct3 from general knowledge (G1 to G4). -/
def Obligations.EncoderEmitsOnlyCanonicalWords : Prop :=
  ∀ (mnemonic operandText : Text) (address : Nat) (table : LabelTable) (w : Word),
    encodeLine mnemonic operandText address table = .ok w →
      ∃ m, mnemonicOfText mnemonic = some m ∧ m.canonical w

/-- The register names: the five names and `x0` to `x31` give their indices, a name and its `xN` form the same one, and every
token accepted is one of the five names or `x` and decimal digits of value below 32 (47_assembler.md R196; the `xN` form is the
spec's decision D18). -/
def Obligations.RegisterNamesAreTheTable : Prop :=
  (registerOfText "zero".toList = some 0 ∧ registerOfText "ra".toList = some 1 ∧
    registerOfText "sp".toList = some 2 ∧ registerOfText "a0".toList = some 10 ∧
    registerOfText "a7".toList = some 17) ∧
  (∀ (digits : Text) (n : Nat), naturalOfText digits = some n →
    registerOfText ('x' :: digits) = if n < 32 then some (BitVec.ofNat 5 n) else none) ∧
  (∀ (t : Text) (r : RegIdx), registerOfText t = some r →
    t ∈ ["zero".toList, "ra".toList, "sp".toList, "a0".toList, "a7".toList] ∨
    ∃ digits n, t = 'x' :: digits ∧ naturalOfText digits = some n ∧ n < 32)

/-- The encoder's checks in their order, each made only when those before it pass: unsupported mnemonic, missing operands,
wrong shape, unknown register, and for `beq` unresolved label and offset out of range; otherwise a word (46_encoder.md
R162, whose order is the spec's decision D15). `ecall` takes no operand text, white space included (R171, D16). Which
register and label tokens have the shape of one is DEDUCED log entry 13. Rests on DESIGN CHOICE log entry 11, addresses
as natural numbers, never wrapping. -/
def Obligations.EncoderChecksInOrder : Prop :=
  ∀ (mnemonic operandText : Text) (address : Nat) (table : LabelTable),
    let result := encodeLine mnemonic operandText address table
    (mnemonicOfText mnemonic = none → result = .error .unsupportedMnemonic) ∧
    ∀ m, mnemonicOfText mnemonic = some m →
      (m ≠ .ecall → trim operandText = [] → result = .error .missingOperands) ∧
      (m = .ecall ∨ trim operandText ≠ [] →
        (registerTokens m operandText = none → result = .error .syntaxError) ∧
        ∀ tokens, registerTokens m operandText = some tokens →
          ((∃ token ∈ tokens, registerOfText token = none) → result = .error .unknownRegister) ∧
          ((∀ token ∈ tokens, registerOfText token ≠ none) →
            (m ≠ .beq → ∃ w, result = .ok w) ∧
            (m = .beq → ∀ a b l, shapeRRL operandText = some (a, b, l) →
              (table.find l = none → result = .error .unresolvedLabel) ∧
              ∀ target, table.find l = some target →
                (¬ beqOffsetOk (beqOffset target address) → result = .error .branchRangeError) ∧
                (beqOffsetOk (beqOffset target address) → ∃ w, result = .ok w))))

/-! ### The assembler -/

/-- Pass 1 records every label at 4 times the number of instruction lines before it, wherever it stands and whatever follows
(47_assembler.md R200, R203, R204). That the address never wraps, however long the source, is the model's (DESIGN CHOICE log
entry 11). -/
def Obligations.PassOneRecordsLabelAddresses : Prop :=
  ∀ (before after : List Text) (line name : Text) (table : LabelTable),
    classifyLine line = .label name → pass1 (before ++ line :: after) = .ok table →
      table.find name = some (4 * instructionCount before)

/-- Pass 1 fails exactly when a label name is defined twice, and always with `DuplicateLabel` (47_assembler.md R201; that
duplicates are rejected is the spec's decision D17). -/
def Obligations.PassOneRejectsExactlyDuplicates : Prop :=
  ∀ source : List Text,
    ((labelNames source).Nodup → ∃ table, pass1 source = .ok table) ∧
    (¬ (labelNames source).Nodup → pass1 source = .error .duplicateLabel)

/-- An assembly that succeeds encodes the n-th instruction line at address `4n`, with the label table of pass 1 over the whole
source, and emits one word for each such line and nothing else (47_assembler.md R202, R203, R204). Addresses are natural
numbers (DESIGN CHOICE log entry 11). -/
def Obligations.PassTwoEncodesEachLineAtItsAddress : Prop :=
  ∀ (source : List Text) (words : List Word), assemble source = .ok words →
    ∃ table, pass1 source = .ok table ∧ words.length = (instructionLines source).length ∧
      ∀ (n : Nat) (m t : Text), (instructionLines source)[n]? = some (m, t) →
        ∃ w, words[n]? = some w ∧ encodeLine m t (4 * n) table = .ok w

/-- The image is four bytes a word, byte `4n + k` being bits `8k+7 : 8k` of word `n` (47_assembler.md R206). -/
def Obligations.ImageIsLittleEndianWords : Prop :=
  ∀ words : List Word, (imageOf words).length = 4 * words.length ∧
    ∀ (n k : Nat) (w : Word), words[n]? = some w → k < 4 →
      (imageOf words)[4 * n + k]? = some (w.extractLsb' (8 * k) 8)

/-- An image loaded by reset is fetched word for word: with `pc` at `4n` the CPU fetches word `n` (47_assembler.md R204, R206;
70_reset_and_hazards.md R251). -/
def Obligations.LoadedWordsAreFetched : Prop :=
  ∀ (memSize : Nat) (words : List Word) (s : State) (n : Nat) (w : Word),
    State.resetWith memSize (imageOf words) = some s → words[n]? = some w →
      ({ s with pc := BitVec.ofNat 32 (4 * n) } : State).fetch = some w
end

