-- ==== Sys2Proof/Laws/Assembler.lean ====
section
/-! SUPPORT. The label table after an append, and the lines of a source counted one at a time. -/

namespace Sys2Proof.Machine

/-- A name is looked up in the old table first. -/
theorem find_append (table : LabelTable) (name other : Text) (address : Nat) :
    LabelTable.find (table ++ [(name, address)]) other =
      (table.find other).or (if other = name then some address else none) := by
  rw [LabelTable.find, LabelTable.find, List.lookup_append]
  congr 1
  by_cases h : other = name
  · simp [List.lookup, h]
  · have hb : (other == name) = false := beq_eq_false_iff_ne.2 h
    simp [List.lookup, h, hb]

theorem instructionCount_cons (line : Text) (rest : List Text) :
    instructionCount (line :: rest) =
      instructionCount rest + (match classifyLine line with | .instruction _ _ => 1 | _ => 0) := by
  rw [instructionCount, instructionCount, List.countP_cons]
  cases classifyLine line <;> rfl

theorem instructionLines_cons (line : Text) (rest : List Text) :
    instructionLines (line :: rest) =
      (match classifyLine line with | .instruction m t => [(m, t)] | _ => []) ++ instructionLines rest := by
  rw [instructionLines, instructionLines, List.filterMap_cons]
  cases classifyLine line <;> rfl

theorem labelNames_cons (line : Text) (rest : List Text) :
    labelNames (line :: rest) =
      (match classifyLine line with | .label name => [name] | _ => []) ++ labelNames rest := by
  rw [labelNames, labelNames, List.filterMap_cons]
  cases classifyLine line <;> rfl

theorem imageOf_cons (w : Word) (words : List Word) : imageOf (w :: words) = bytesOfWord w ++ imageOf words := rfl

end Sys2Proof.Machine
end

