-- ==== Sys2Proof/Laws/Decode.lean ====
section
/-! SUPPORT. Bit by bit what the fields of a word are and what the formats put into one; the fields of an encoded word. -/

namespace Sys2Proof

/-! ### The bits of the fields -/

section Fields

variable (w : Word) (i : Nat)

theorem getLsbD_opcode (hi : i < 7) : (opcode w).getLsbD i = w.getLsbD i := by
  simp only [opcode, BitVec.getLsbD_extractLsb', decide_eq_true hi, Bool.true_and, Nat.zero_add]

theorem getLsbD_rdField (hi : i < 5) : (rdField w).getLsbD i = w.getLsbD (7 + i) := by
  simp only [rdField, BitVec.getLsbD_extractLsb', decide_eq_true hi, Bool.true_and]

theorem getLsbD_funct3 (hi : i < 3) : (funct3 w).getLsbD i = w.getLsbD (12 + i) := by
  simp only [funct3, BitVec.getLsbD_extractLsb', decide_eq_true hi, Bool.true_and]

theorem getLsbD_rs1Field (hi : i < 5) : (rs1Field w).getLsbD i = w.getLsbD (15 + i) := by
  simp only [rs1Field, BitVec.getLsbD_extractLsb', decide_eq_true hi, Bool.true_and]

theorem getLsbD_rs2Field (hi : i < 5) : (rs2Field w).getLsbD i = w.getLsbD (20 + i) := by
  simp only [rs2Field, BitVec.getLsbD_extractLsb', decide_eq_true hi, Bool.true_and]

theorem getLsbD_funct7 (hi : i < 7) : (funct7 w).getLsbD i = w.getLsbD (25 + i) := by
  simp only [funct7, BitVec.getLsbD_extractLsb', decide_eq_true hi, Bool.true_and]

theorem getLsbD_immI (hi : i < 12) : (immI w).getLsbD i = w.getLsbD (20 + i) := by
  simp only [immI, BitVec.getLsbD_extractLsb', decide_eq_true hi, Bool.true_and]

theorem getLsbD_immU (hi : i < 20) : (immU w).getLsbD i = w.getLsbD (12 + i) := by
  simp only [immU, BitVec.getLsbD_extractLsb', decide_eq_true hi, Bool.true_and]

theorem getLsbD_immS (hi : i < 12) :
    (immS w).getLsbD i = if i < 5 then w.getLsbD (7 + i) else w.getLsbD (20 + i) := by
  unfold immS
  rw [BitVec.getLsbD_append]
  simp only [BitVec.getLsbD_extractLsb']
  split_ifs <;> rw [decide_eq_true (by omega), Bool.true_and]
  congr 1; omega

theorem getLsbD_immB (hi : i < 13) : (immB w).getLsbD i =
    if i < 1 then false else if i < 5 then w.getLsbD (7 + i) else if i < 11 then w.getLsbD (20 + i)
    else if i < 12 then w.getLsbD 7 else w.getLsbD 31 := by
  unfold immB
  rw [BitVec.getLsbD_append, BitVec.getLsbD_append, BitVec.getLsbD_append, BitVec.getLsbD_append]
  simp only [BitVec.getLsbD_extractLsb']
  split_ifs <;> first
    | omega
    | (rw [decide_eq_true (by omega), Bool.true_and]; congr 1; omega)
    | (rw [show i = 0 by omega]; rfl)

theorem getLsbD_immJ (hi : i < 21) : (immJ w).getLsbD i =
    if i < 1 then false else if i < 11 then w.getLsbD (20 + i) else if i < 12 then w.getLsbD 20
    else if i < 20 then w.getLsbD i else w.getLsbD 31 := by
  unfold immJ
  rw [BitVec.getLsbD_append, BitVec.getLsbD_append, BitVec.getLsbD_append, BitVec.getLsbD_append]
  simp only [BitVec.getLsbD_extractLsb']
  split_ifs <;> first
    | omega
    | (rw [decide_eq_true (by omega), Bool.true_and]; congr 1; omega)
    | (rw [show i = 0 by omega]; rfl)

end Fields

/-! ### The bits of the formats -/

section Formats

variable (f7 o : BitVec 7) (f3 : BitVec 3) (d a b : RegIdx) (i : Nat)

theorem getLsbD_formatR : (formatR f7 b a f3 d o).getLsbD i =
    if i < 7 then o.getLsbD i else if i < 12 then d.getLsbD (i - 7) else if i < 15 then f3.getLsbD (i - 12)
    else if i < 20 then a.getLsbD (i - 15) else if i < 25 then b.getLsbD (i - 20) else f7.getLsbD (i - 25) := by
  simp only [formatR, BitVec.getLsbD_append]
  split_ifs <;> first | omega | rfl

theorem getLsbD_formatI (imm : BitVec 12) : (formatI imm a f3 d o).getLsbD i =
    if i < 7 then o.getLsbD i else if i < 12 then d.getLsbD (i - 7) else if i < 15 then f3.getLsbD (i - 12)
    else if i < 20 then a.getLsbD (i - 15) else imm.getLsbD (i - 20) := by
  simp only [formatI, BitVec.getLsbD_append]
  split_ifs <;> first | omega | rfl

theorem getLsbD_formatS (imm : BitVec 12) (hi : i < 32) : (formatS imm b a f3 o).getLsbD i =
    if i < 7 then o.getLsbD i else if i < 12 then imm.getLsbD (i - 7) else if i < 15 then f3.getLsbD (i - 12)
    else if i < 20 then a.getLsbD (i - 15) else if i < 25 then b.getLsbD (i - 20) else imm.getLsbD (i - 20) := by
  simp only [formatS, BitVec.getLsbD_append, BitVec.getLsbD_extractLsb']
  split_ifs <;> first
    | omega | rfl | (rw [decide_eq_true (by omega), Bool.true_and]; congr 1; omega)

theorem getLsbD_formatB (imm : BitVec 13) (hi : i < 32) : (formatB imm b a f3 o).getLsbD i =
    if i < 7 then o.getLsbD i else if i < 8 then imm.getLsbD 11 else if i < 12 then imm.getLsbD (i - 7)
    else if i < 15 then f3.getLsbD (i - 12) else if i < 20 then a.getLsbD (i - 15)
    else if i < 25 then b.getLsbD (i - 20) else if i < 31 then imm.getLsbD (i - 20) else imm.getLsbD 12 := by
  simp only [formatB, BitVec.getLsbD_append, BitVec.getLsbD_extractLsb']
  split_ifs <;> first
    | omega | rfl | (rw [decide_eq_true (by omega), Bool.true_and]; congr 1; omega)

theorem getLsbD_formatU (imm : BitVec 20) : (formatU imm d o).getLsbD i =
    if i < 7 then o.getLsbD i else if i < 12 then d.getLsbD (i - 7) else imm.getLsbD (i - 12) := by
  simp only [formatU, BitVec.getLsbD_append]
  split_ifs <;> first | omega | rfl

theorem getLsbD_formatJ (imm : BitVec 21) (hi : i < 32) : (formatJ imm d o).getLsbD i =
    if i < 7 then o.getLsbD i else if i < 12 then d.getLsbD (i - 7) else if i < 20 then imm.getLsbD i
    else if i < 21 then imm.getLsbD 11 else if i < 31 then imm.getLsbD (i - 20) else imm.getLsbD 20 := by
  simp only [formatJ, BitVec.getLsbD_append, BitVec.getLsbD_extractLsb']
  split_ifs <;> first
    | omega | rfl | (rw [decide_eq_true (by omega), Bool.true_and]; congr 1; omega)

end Formats

/-! ### The fields of an encoded word -/

section FormatR

variable (f7 o : BitVec 7) (f3 : BitVec 3) (d a b : RegIdx)

@[simp] theorem opcode_formatR : opcode (formatR f7 b a f3 d o) = o := by
  refine BitVec.eq_of_getLsbD_eq fun i hi => ?_
  rw [getLsbD_opcode _ _ hi, getLsbD_formatR]
  split_ifs; rfl

@[simp] theorem rdField_formatR : rdField (formatR f7 b a f3 d o) = d := by
  refine BitVec.eq_of_getLsbD_eq fun i hi => ?_
  rw [getLsbD_rdField _ _ hi, getLsbD_formatR]
  split_ifs <;> first | omega | rfl | (congr 1; omega)

@[simp] theorem funct3_formatR : funct3 (formatR f7 b a f3 d o) = f3 := by
  refine BitVec.eq_of_getLsbD_eq fun i hi => ?_
  rw [getLsbD_funct3 _ _ hi, getLsbD_formatR]
  split_ifs <;> first | omega | rfl | (congr 1; omega)

@[simp] theorem rs1Field_formatR : rs1Field (formatR f7 b a f3 d o) = a := by
  refine BitVec.eq_of_getLsbD_eq fun i hi => ?_
  rw [getLsbD_rs1Field _ _ hi, getLsbD_formatR]
  split_ifs <;> first | omega | rfl | (congr 1; omega)

@[simp] theorem rs2Field_formatR : rs2Field (formatR f7 b a f3 d o) = b := by
  refine BitVec.eq_of_getLsbD_eq fun i hi => ?_
  rw [getLsbD_rs2Field _ _ hi, getLsbD_formatR]
  split_ifs <;> first | omega | rfl | (congr 1; omega)

@[simp] theorem funct7_formatR : funct7 (formatR f7 b a f3 d o) = f7 := by
  refine BitVec.eq_of_getLsbD_eq fun i hi => ?_
  rw [getLsbD_funct7 _ _ hi, getLsbD_formatR]
  split_ifs <;> first | omega | rfl | (congr 1; omega)

end FormatR

section FormatI

variable (imm : BitVec 12) (o : BitVec 7) (f3 : BitVec 3) (d a : RegIdx)

@[simp] theorem opcode_formatI : opcode (formatI imm a f3 d o) = o := by
  refine BitVec.eq_of_getLsbD_eq fun i hi => ?_
  rw [getLsbD_opcode _ _ hi, getLsbD_formatI]
  split_ifs; rfl

@[simp] theorem rdField_formatI : rdField (formatI imm a f3 d o) = d := by
  refine BitVec.eq_of_getLsbD_eq fun i hi => ?_
  rw [getLsbD_rdField _ _ hi, getLsbD_formatI]
  split_ifs <;> first | omega | rfl | (congr 1; omega)

@[simp] theorem funct3_formatI : funct3 (formatI imm a f3 d o) = f3 := by
  refine BitVec.eq_of_getLsbD_eq fun i hi => ?_
  rw [getLsbD_funct3 _ _ hi, getLsbD_formatI]
  split_ifs <;> first | omega | rfl | (congr 1; omega)

@[simp] theorem rs1Field_formatI : rs1Field (formatI imm a f3 d o) = a := by
  refine BitVec.eq_of_getLsbD_eq fun i hi => ?_
  rw [getLsbD_rs1Field _ _ hi, getLsbD_formatI]
  split_ifs <;> first | omega | rfl | (congr 1; omega)

@[simp] theorem immI_formatI : immI (formatI imm a f3 d o) = imm := by
  refine BitVec.eq_of_getLsbD_eq fun i hi => ?_
  rw [getLsbD_immI _ _ hi, getLsbD_formatI]
  split_ifs <;> first | omega | rfl | (congr 1; omega)

end FormatI

section FormatS

variable (imm : BitVec 12) (o : BitVec 7) (f3 : BitVec 3) (a b : RegIdx)

@[simp] theorem opcode_formatS : opcode (formatS imm b a f3 o) = o := by
  refine BitVec.eq_of_getLsbD_eq fun i hi => ?_
  rw [getLsbD_opcode _ _ hi, getLsbD_formatS (hi := by omega)]
  split_ifs; rfl

@[simp] theorem funct3_formatS : funct3 (formatS imm b a f3 o) = f3 := by
  refine BitVec.eq_of_getLsbD_eq fun i hi => ?_
  rw [getLsbD_funct3 _ _ hi, getLsbD_formatS (hi := by omega)]
  split_ifs <;> first | omega | rfl | (congr 1; omega)

@[simp] theorem rs1Field_formatS : rs1Field (formatS imm b a f3 o) = a := by
  refine BitVec.eq_of_getLsbD_eq fun i hi => ?_
  rw [getLsbD_rs1Field _ _ hi, getLsbD_formatS (hi := by omega)]
  split_ifs <;> first | omega | rfl | (congr 1; omega)

@[simp] theorem rs2Field_formatS : rs2Field (formatS imm b a f3 o) = b := by
  refine BitVec.eq_of_getLsbD_eq fun i hi => ?_
  rw [getLsbD_rs2Field _ _ hi, getLsbD_formatS (hi := by omega)]
  split_ifs <;> first | omega | rfl | (congr 1; omega)

@[simp] theorem immS_formatS : immS (formatS imm b a f3 o) = imm := by
  refine BitVec.eq_of_getLsbD_eq fun i hi => ?_
  rw [getLsbD_immS _ _ hi]
  split_ifs <;> rw [getLsbD_formatS (hi := by omega)] <;> split_ifs <;> first | omega | rfl | (congr 1; omega)

end FormatS

section FormatB

variable (imm : BitVec 13) (o : BitVec 7) (f3 : BitVec 3) (a b : RegIdx)

@[simp] theorem opcode_formatB : opcode (formatB imm b a f3 o) = o := by
  refine BitVec.eq_of_getLsbD_eq fun i hi => ?_
  rw [getLsbD_opcode _ _ hi, getLsbD_formatB (hi := by omega)]
  split_ifs; rfl

@[simp] theorem funct3_formatB : funct3 (formatB imm b a f3 o) = f3 := by
  refine BitVec.eq_of_getLsbD_eq fun i hi => ?_
  rw [getLsbD_funct3 _ _ hi, getLsbD_formatB (hi := by omega)]
  split_ifs <;> first | omega | rfl | (congr 1; omega)

@[simp] theorem rs1Field_formatB : rs1Field (formatB imm b a f3 o) = a := by
  refine BitVec.eq_of_getLsbD_eq fun i hi => ?_
  rw [getLsbD_rs1Field _ _ hi, getLsbD_formatB (hi := by omega)]
  split_ifs <;> first | omega | rfl | (congr 1; omega)

@[simp] theorem rs2Field_formatB : rs2Field (formatB imm b a f3 o) = b := by
  refine BitVec.eq_of_getLsbD_eq fun i hi => ?_
  rw [getLsbD_rs2Field _ _ hi, getLsbD_formatB (hi := by omega)]
  split_ifs <;> first | omega | rfl | (congr 1; omega)

@[simp] theorem immB_formatB (h : imm.getLsbD 0 = false) : immB (formatB imm b a f3 o) = imm := by
  refine BitVec.eq_of_getLsbD_eq fun i hi => ?_
  rw [getLsbD_immB _ _ hi]
  split_ifs <;> first
    | rw [show i = 0 by omega, h]
    | (rw [getLsbD_formatB (hi := by omega)]; split_ifs <;> first | omega | rfl | (congr 1; omega))

end FormatB

section FormatU

variable (imm : BitVec 20) (o : BitVec 7) (d : RegIdx)

@[simp] theorem opcode_formatU : opcode (formatU imm d o) = o := by
  refine BitVec.eq_of_getLsbD_eq fun i hi => ?_
  rw [getLsbD_opcode _ _ hi, getLsbD_formatU]
  split_ifs; rfl

@[simp] theorem rdField_formatU : rdField (formatU imm d o) = d := by
  refine BitVec.eq_of_getLsbD_eq fun i hi => ?_
  rw [getLsbD_rdField _ _ hi, getLsbD_formatU]
  split_ifs <;> first | omega | rfl | (congr 1; omega)

@[simp] theorem immU_formatU : immU (formatU imm d o) = imm := by
  refine BitVec.eq_of_getLsbD_eq fun i hi => ?_
  rw [getLsbD_immU _ _ hi, getLsbD_formatU]
  split_ifs <;> first | omega | rfl | (congr 1; omega)

end FormatU

section FormatJ

variable (imm : BitVec 21) (o : BitVec 7) (d : RegIdx)

@[simp] theorem opcode_formatJ : opcode (formatJ imm d o) = o := by
  refine BitVec.eq_of_getLsbD_eq fun i hi => ?_
  rw [getLsbD_opcode _ _ hi, getLsbD_formatJ (hi := by omega)]
  split_ifs; rfl

@[simp] theorem rdField_formatJ : rdField (formatJ imm d o) = d := by
  refine BitVec.eq_of_getLsbD_eq fun i hi => ?_
  rw [getLsbD_rdField _ _ hi, getLsbD_formatJ (hi := by omega)]
  split_ifs <;> first | omega | rfl | (congr 1; omega)

@[simp] theorem immJ_formatJ (h : imm.getLsbD 0 = false) : immJ (formatJ imm d o) = imm := by
  refine BitVec.eq_of_getLsbD_eq fun i hi => ?_
  rw [getLsbD_immJ _ _ hi]
  split_ifs <;> first
    | rw [show i = 0 by omega, h]
    | (rw [getLsbD_formatJ (hi := by omega)]; split_ifs <;> first | omega | rfl | (congr 1; omega))

end FormatJ

/-! ### The masks of the opcode table as field tests -/

section Masks

variable {w p : Word}

theorem and_mask_eq_iff {mask : Word} :
    w &&& mask = p &&& mask ↔ ∀ i, i < 32 → mask.getLsbD i = true → w.getLsbD i = p.getLsbD i := by
  constructor
  · intro h i _ hm
    have := congrArg (·.getLsbD i) h
    simpa only [BitVec.getLsbD_and, hm, Bool.and_true] using this
  · intro h
    refine BitVec.eq_of_getLsbD_eq fun i hi => ?_
    rw [BitVec.getLsbD_and, BitVec.getLsbD_and]
    cases hm : mask.getLsbD i with
    | false => simp only [Bool.and_false]
    | true => rw [h i hi hm]

theorem opcode_eq_iff : opcode w = opcode p ↔ ∀ k, k < 7 → w.getLsbD k = p.getLsbD k := by
  constructor
  · intro h k hk
    rw [← getLsbD_opcode _ _ hk, h, getLsbD_opcode _ _ hk]
  · intro h
    refine BitVec.eq_of_getLsbD_eq fun k hk => ?_
    rw [getLsbD_opcode _ _ hk, getLsbD_opcode _ _ hk, h k hk]

theorem funct3_eq_iff : funct3 w = funct3 p ↔ ∀ k, k < 3 → w.getLsbD (12 + k) = p.getLsbD (12 + k) := by
  constructor
  · intro h k hk
    rw [← getLsbD_funct3 _ _ hk, h, getLsbD_funct3 _ _ hk]
  · intro h
    refine BitVec.eq_of_getLsbD_eq fun k hk => ?_
    rw [getLsbD_funct3 _ _ hk, getLsbD_funct3 _ _ hk, h k hk]

theorem funct7_eq_iff : funct7 w = funct7 p ↔ ∀ k, k < 7 → w.getLsbD (25 + k) = p.getLsbD (25 + k) := by
  constructor
  · intro h k hk
    rw [← getLsbD_funct7 _ _ hk, h, getLsbD_funct7 _ _ hk]
  · intro h
    refine BitVec.eq_of_getLsbD_eq fun k hk => ?_
    rw [getLsbD_funct7 _ _ hk, getLsbD_funct7 _ _ hk, h k hk]

/-- The mask 0x7F tests the opcode. -/
theorem and_opcodeMask : w &&& 0x0000007F#32 = p &&& 0x0000007F#32 ↔ opcode w = opcode p := by
  have hm : ∀ i, i < 32 → ((0x0000007F#32).getLsbD i = true ↔ i < 7) := by decide
  rw [and_mask_eq_iff, opcode_eq_iff]
  exact ⟨fun h k hk => h k (by omega) ((hm k (by omega)).2 hk), fun h i hi hb => h i ((hm i hi).1 hb)⟩

/-- The mask 0x707F tests the opcode and `funct3`. -/
theorem and_opcodeFunct3Mask :
    w &&& 0x0000707F#32 = p &&& 0x0000707F#32 ↔ opcode w = opcode p ∧ funct3 w = funct3 p := by
  have hm : ∀ i, i < 32 → ((0x0000707F#32).getLsbD i = true ↔ i < 7 ∨ (12 ≤ i ∧ i < 15)) := by decide
  rw [and_mask_eq_iff, opcode_eq_iff, funct3_eq_iff]
  refine ⟨fun h => ⟨fun k hk => h k (by omega) ((hm k (by omega)).2 (by omega)),
    fun k hk => h _ (by omega) ((hm _ (by omega)).2 (by omega))⟩, fun h i hi hb => ?_⟩
  rcases (hm i hi).1 hb with hk | hk
  · exact h.1 i hk
  · simpa only [Nat.add_sub_of_le hk.1] using h.2 (i - 12) (by omega)

/-- The mask 0xFE00707F tests the opcode, `funct3` and `funct7`. -/
theorem and_opcodeFunctMask : w &&& 0xFE00707F#32 = p &&& 0xFE00707F#32 ↔
    opcode w = opcode p ∧ funct3 w = funct3 p ∧ funct7 w = funct7 p := by
  have hm : ∀ i, i < 32 →
      ((0xFE00707F#32).getLsbD i = true ↔ i < 7 ∨ (12 ≤ i ∧ i < 15) ∨ 25 ≤ i) := by decide
  rw [and_mask_eq_iff, opcode_eq_iff, funct3_eq_iff, funct7_eq_iff]
  refine ⟨fun h => ⟨fun k hk => h k (by omega) ((hm k (by omega)).2 (by omega)),
    fun k hk => h _ (by omega) ((hm _ (by omega)).2 (by omega)),
    fun k hk => h _ (by omega) ((hm _ (by omega)).2 (by omega))⟩, fun h i hi hb => ?_⟩
  rcases (hm i hi).1 hb with hk | hk | hk
  · exact h.1 i hk
  · simpa only [Nat.add_sub_of_le hk.1] using h.2.1 (i - 12) (by omega)
  · simpa only [Nat.add_sub_of_le hk] using h.2.2 (i - 25) (by omega)

end Masks

/-! ### The class of a word by its fields -/

section Classes

variable {w : Word}

theorem classify_eq_add : classify w = .add ↔ opcode w = 0x33#7 ∧ funct3 w = 0x0#3 ∧ funct7 w = 0x00#7 := by
  unfold classify; split_ifs <;> simp_all

theorem classify_eq_sub : classify w = .sub ↔ opcode w = 0x33#7 ∧ funct3 w = 0x0#3 ∧ funct7 w = 0x20#7 := by
  unfold classify; split_ifs <;> simp_all

theorem classify_eq_xor : classify w = .xor ↔ opcode w = 0x33#7 ∧ funct3 w = 0x4#3 := by
  unfold classify; split_ifs <;> simp_all

theorem classify_eq_beq : classify w = .beq ↔ opcode w = 0x63#7 ∧ funct3 w = 0x0#3 := by
  unfold classify; split_ifs <;> simp_all

theorem classify_eq_addi : classify w = .addi ↔ opcode w = 0x13#7 := by
  unfold classify; split_ifs <;> simp_all

theorem classify_eq_lw : classify w = .lw ↔ opcode w = 0x03#7 := by
  unfold classify; split_ifs <;> simp_all

theorem classify_eq_sw : classify w = .sw ↔ opcode w = 0x23#7 := by
  unfold classify; split_ifs <;> simp_all

theorem classify_eq_lui : classify w = .lui ↔ opcode w = 0x37#7 := by
  unfold classify; split_ifs <;> simp_all

theorem classify_eq_jal : classify w = .jal ↔ opcode w = 0x6F#7 := by
  unfold classify; split_ifs <;> simp_all

theorem classify_eq_ecall : classify w = .ecall ↔ opcode w = 0x73#7 := by
  unfold classify; split_ifs <;> simp_all

end Classes

end Sys2Proof
end

