-- ==== Sys2Proof/Laws/Encoder.lean ====
section
/-! SUPPORT. Packing by shifts and ors (46_encoder.md R163 to R170) is the same word as the formats of `encode`; the
parity and the value of a reduced immediate. -/

namespace Sys2Proof.Machine

/-! ### Packing and the formats -/

/-- The bits of a field placed at a position. -/
theorem getLsbD_place {n : Nat} (v : BitVec n) (p i : Nat) :
    (place v p).getLsbD i = (decide (i < 32) && (decide (p ≤ i) && (decide (i - p < n) && v.getLsbD (i - p)))) := by
  simp only [place, BitVec.getLsbD_shiftLeft, BitVec.getLsbD_setWidth]
  by_cases h : i < 32
  · by_cases h1 : p ≤ i
    · by_cases h2 : i - p < n
      · simp [h, h2, show ¬ i < p by omega, h1, show i - p < 32 by omega]
      · rw [BitVec.getLsbD_of_ge _ _ (by omega)]; simp
    · simp [h1, show i < p by omega]
  · simp [h]

variable (a b d : RegIdx)

theorem packR_eq (f7 : BitVec 7) (f3 : BitVec 3) : packR f7 b a f3 d = formatR f7 b a f3 d 0x33#7 := by
  refine BitVec.eq_of_getLsbD_eq fun i hi => ?_
  rw [getLsbD_formatR]
  simp only [packR, BitVec.getLsbD_or, getLsbD_place]
  interval_cases i <;> simp

theorem packAddi_eq (imm : Int) : packAddi d a imm = formatI (reduce12 imm) a 0#3 d 0x13#7 := by
  refine BitVec.eq_of_getLsbD_eq fun i hi => ?_
  rw [getLsbD_formatI]
  simp only [packAddi, BitVec.getLsbD_or, getLsbD_place]
  generalize reduce12 imm = v
  interval_cases i <;> simp

theorem packLw_eq (imm : Int) : packLw d a imm = formatI (reduce12 imm) a 2#3 d 0x03#7 := by
  refine BitVec.eq_of_getLsbD_eq fun i hi => ?_
  rw [getLsbD_formatI]
  simp only [packLw, BitVec.getLsbD_or, getLsbD_place]
  generalize reduce12 imm = v
  interval_cases i <;> simp

theorem packSw_eq (imm : Int) : packSw b a imm = formatS (reduce12 imm) b a 2#3 0x23#7 := by
  refine BitVec.eq_of_getLsbD_eq fun i hi => ?_
  rw [getLsbD_formatS _ _ _ _ _ _ hi]
  simp only [packSw, BitVec.getLsbD_or, getLsbD_place, BitVec.getLsbD_extractLsb']
  generalize reduce12 imm = v
  interval_cases i <;> simp

theorem packBeq_eq (offset : Int) : packBeq a b offset = formatB (BitVec.ofInt 13 offset) b a 0#3 0x63#7 := by
  refine BitVec.eq_of_getLsbD_eq fun i hi => ?_
  rw [getLsbD_formatB _ _ _ _ _ _ hi]
  simp only [packBeq, BitVec.getLsbD_or, getLsbD_place, BitVec.getLsbD_extractLsb']
  generalize BitVec.ofInt 13 offset = v
  interval_cases i <;> simp

theorem packLui_eq (imm : Int) : packLui d imm = formatU (BitVec.ofInt 20 imm) d 0x37#7 := by
  refine BitVec.eq_of_getLsbD_eq fun i hi => ?_
  rw [getLsbD_formatU]
  simp only [packLui, BitVec.getLsbD_or, getLsbD_place]
  generalize BitVec.ofInt 20 imm = v
  interval_cases i <;> simp

theorem packJal_eq (imm : Int) : packJal d imm = formatJ (BitVec.ofInt 21 imm) d 0x6F#7 := by
  refine BitVec.eq_of_getLsbD_eq fun i hi => ?_
  rw [getLsbD_formatJ _ _ _ _ hi]
  simp only [packJal, BitVec.getLsbD_or, getLsbD_place, BitVec.getLsbD_extractLsb']
  generalize BitVec.ofInt 21 imm = v
  interval_cases i <;> simp

/-! ### Reduced immediates -/

/-- The pattern of an even integer is even. -/
theorem getLsbD_zero_ofInt {n : Nat} {z : Int} (h : z % 2 = 0) : (BitVec.ofInt (n + 1) z).getLsbD 0 = false := by
  obtain ⟨k, rfl⟩ : ∃ k, z = 2 * k := ⟨z / 2, by omega⟩
  have hk : (2 * k) % (2 ^ (n + 1) : Int) = 2 * (k % 2 ^ n) := by
    rw [show (2 : Int) ^ (n + 1) = 2 * 2 ^ n by ring, Int.mul_emod_mul_of_pos _ _ (by norm_num)]
  have h2 : (BitVec.ofInt (n + 1) (2 * k)).toNat % 2 = 0 := by
    rw [BitVec.toNat_ofInt]
    push_cast
    rw [hk]
    omega
  rw [BitVec.getLsbD, Nat.testBit_zero, h2]
  rfl

/-- A `jal` stores every bit of the reduced number but bit 0, so the number and the even number below it give the same
word. -/
theorem packJal_even (rd : RegIdx) (imm : Int) : packJal rd (imm - imm % 2) = packJal rd imm := by
  have hbit : ∀ k, 1 ≤ k → (BitVec.ofInt 21 (imm - imm % 2)).getLsbD k = (BitVec.ofInt 21 imm).getLsbD k := fun k hk => by
    obtain ⟨j, rfl⟩ : ∃ j, k = j + 1 := ⟨k - 1, by omega⟩
    simp only [BitVec.getLsbD, Nat.testBit_succ, BitVec.toNat_ofInt]
    congr 1
    omega
  rw [packJal_eq, packJal_eq]
  refine BitVec.eq_of_getLsbD_eq fun i hi => ?_
  rw [getLsbD_formatJ _ _ _ _ hi, getLsbD_formatJ _ _ _ _ hi]
  split_ifs <;> first | rfl | exact hbit _ (by omega)

/-- An offset in range is kept whole by the 13 bits of the B format. -/
theorem toInt_ofInt_beqOffset {offset : Int} (h : beqOffsetOk offset) : (BitVec.ofInt 13 offset).toInt = offset := by
  obtain ⟨h1, h2, -⟩ := h
  rw [BitVec.toInt_ofInt]
  simp only [Int.bmod]
  omega

end Sys2Proof.Machine
end

