-- ==== Sys2Proof/Laws/Memory.lean ====
section
/-! SUPPORT. The laws of memory: a read after a write, the canonical form kept by every operation, and the
image loaded. -/

namespace Sys2Proof.Machine.Memory

@[simp] theorem read_nil (a : Nat) : read [] a = unlisted := rfl

theorem read_cons (c : Host.Cell) (m : Memory) (a : Nat) :
    read (c :: m) a = if c.1 = a then c.2 else read m a := rfl

@[simp] theorem wf_nil : wf [] := by simp [wf]

theorem wf_cons {c : Host.Cell} {m : Memory} :
    wf (c :: m) ↔ (∀ p ∈ m, c.1 < p.1) ∧ c.2 ≠ unlisted ∧ wf m := by
  simp only [wf, List.pairwise_cons, List.mem_cons, forall_eq_or_imp]
  tauto

/-- An address below every listed one reads as unlisted. -/
theorem read_below {m : Memory} {a : Nat} (h : ∀ p ∈ m, a < p.1) : read m a = unlisted := by
  induction m with
  | nil => rfl
  | cons c m ih =>
    have hc := h c (by simp)
    rw [read_cons, if_neg (by omega), ih fun p hp => h p (by simp [hp])]

/-- A written address reads as what was written; every other address reads as before. -/
theorem read_write {m : Memory} (hm : wf m) (a : Nat) (v : Byte) (b : Nat) :
    read (write m a v) b = if b = a then v else read m b := by
  induction m with
  | nil => by_cases hv : v = unlisted <;> by_cases h : b = a <;> simp_all [write, read, eq_comm]
  | cons c m ih =>
    obtain ⟨hlt, hne, hw⟩ := wf_cons.1 hm
    obtain ⟨k, x⟩ := c
    simp only [write]
    by_cases h1 : a < k
    · have hbelow : read ((k, x) :: m) a = unlisted :=
        read_below fun p hp => by rcases List.mem_cons.1 hp with rfl | hp; exacts [h1, h1.trans (hlt p hp)]
      by_cases hv : v = unlisted <;> by_cases hb : b = a <;> simp_all [read_cons, eq_comm]
    · by_cases h2 : a = k
      · have hbelow : read m a = unlisted := read_below fun p hp => h2 ▸ hlt p hp
        subst h2
        by_cases hv : v = unlisted <;> by_cases hb : b = a <;> simp_all [read_cons, eq_comm]
      · have : k ≠ a := fun h => h2 h.symm
        by_cases hb : k = b
        · subst hb; simp [h1, h2, read_cons, this]
        · simp [h1, h2, read_cons, hb, ih hw]

/-- The entries of a written memory: the new one, or old ones. -/
theorem mem_write {m : Memory} {a : Nat} {v : Byte} {p : Host.Cell} (hp : p ∈ write m a v) : p.1 = a ∨ p ∈ m := by
  induction m with
  | nil => by_cases hv : v = unlisted <;> simp_all [write]
  | cons c m ih =>
    obtain ⟨k, x⟩ := c
    simp only [write] at hp
    split_ifs at hp <;> simp only [List.mem_cons] at hp ⊢
    · tauto
    · rcases hp with rfl | hp <;> tauto
    · tauto
    · rcases hp with rfl | hp <;> tauto
    · rcases hp with rfl | hp
      · tauto
      · have := ih hp; tauto

/-- Writing a byte keeps the canonical form. -/
theorem wf_write {m : Memory} (hm : wf m) (a : Nat) (v : Byte) : wf (write m a v) := by
  induction m with
  | nil => by_cases hv : v = unlisted <;> simp_all [write, wf]
  | cons c m ih =>
    obtain ⟨hlt, hne, hw⟩ := wf_cons.1 hm
    obtain ⟨k, x⟩ := c
    simp only [write]
    split_ifs with h1 hv h2 hv
    · exact hm
    · refine wf_cons.2 ⟨fun p hp => ?_, hv, hm⟩
      rcases List.mem_cons.1 hp with rfl | hp
      exacts [h1, h1.trans (hlt p hp)]
    · exact hw
    · subst h2; exact wf_cons.2 ⟨hlt, hv, hw⟩
    · refine wf_cons.2 ⟨fun p hp => ?_, hne, ih hw⟩
      rcases mem_write hp with h | hp
      · simp only at h1 ⊢; omega
      · exact hlt p hp

/-- Writing a byte below a bound keeps every entry below it. -/
theorem inside_write {m : Memory} {n : Nat} (hm : ∀ p ∈ m, p.1 < n) {a : Nat} (ha : a < n) (v : Byte) :
    ∀ p ∈ write m a v, p.1 < n := fun p hp => by
  rcases mem_write hp with h | hp
  · omega
  · exact hm p hp

/-- A memory in canonical form that reads as unlisted everywhere lists nothing. -/
theorem read_eq_unlisted_of_all {m : Memory} (hm : wf m) (h : ∀ a, read m a = unlisted) : m = [] := by
  cases m with
  | nil => rfl
  | cons c m =>
    have := h c.1
    simp only [read_cons, if_true] at this
    exact absurd this (wf_cons.1 hm).2.1

/-! ### Words -/

theorem wf_writeWord {m : Memory} (hm : wf m) (a : Nat) (v : Word) : wf (writeWord m a v) :=
  wf_write (wf_write (wf_write (wf_write hm _ _) _ _) _ _) _ _

theorem inside_writeWord {m : Memory} {n : Nat} (hm : ∀ p ∈ m, p.1 < n) {a : Nat} (ha : a + 3 < n) (v : Word) :
    ∀ p ∈ writeWord m a v, p.1 < n :=
  inside_write (inside_write (inside_write (inside_write hm (by omega) _) (by omega) _) (by omega) _) (by omega) _

/-- What a written word makes each byte read as. -/
theorem read_writeWord {m : Memory} (hm : wf m) (a : Nat) (v : Word) (b : Nat) :
    read (writeWord m a v) b =
      if b = a then byteOfWord v 0 else if b = a + 1 then byteOfWord v 1 else if b = a + 2 then byteOfWord v 2
      else if b = a + 3 then byteOfWord v 3 else read m b := by
  unfold writeWord
  rw [read_write (wf_write (wf_write (wf_write hm _ _) _ _) _ _), read_write (wf_write (wf_write hm _ _) _ _),
    read_write (wf_write hm _ _), read_write hm]
  split_ifs <;> first | rfl | omega

/-- A byte outside the four written reads as before. -/
theorem read_writeWord_of_ne {m : Memory} (hm : wf m) {a : Nat} (v : Word) {b : Nat} (h : b < a ∨ a + 3 < b) :
    read (writeWord m a v) b = read m b := by
  rw [read_writeWord hm, if_neg (by omega), if_neg (by omega), if_neg (by omega), if_neg (by omega)]

/-- Words that agree byte by byte in memory order are the composition of those bytes. -/
theorem wordOfBytes_byteOfWord (w : Word) :
    wordOfBytes (byteOfWord w 0) (byteOfWord w 1) (byteOfWord w 2) (byteOfWord w 3) = w := by
  ext i hi
  simp only [wordOfBytes, byteOfWord, BitVec.getElem_eq_testBit_toNat, BitVec.testBit_toNat, BitVec.getLsbD_append,
    BitVec.getLsbD_extractLsb']
  split_ifs <;> rw [decide_eq_true (by omega), Bool.true_and] <;> congr 1 <;> omega

/-- A word read back where it was written. -/
theorem readWord_writeWord {m : Memory} (hm : wf m) (a : Nat) (v : Word) : readWord (writeWord m a v) a = v := by
  have h : ∀ k, k ≤ 3 → read (writeWord m a v) (a + k) = byteOfWord v k := fun k hk => by
    rw [read_writeWord hm]
    have : k = 0 ∨ k = 1 ∨ k = 2 ∨ k = 3 := by omega
    rcases this with rfl | rfl | rfl | rfl <;> simp
  unfold readWord
  rw [show read (writeWord m a v) a = byteOfWord v 0 from h 0 (by omega), h 1 (by omega), h 2 (by omega),
    h 3 (by omega), wordOfBytes_byteOfWord]

/-! ### Loading an image -/

theorem wf_load {m : Memory} (hm : wf m) (a : Nat) (image : List Byte) : wf (load m a image) := by
  induction image generalizing m a with
  | nil => exact hm
  | cons b bytes ih => exact ih (wf_write hm a b) (a + 1)

theorem inside_load {m : Memory} {n : Nat} (hm : ∀ p ∈ m, p.1 < n) (a : Nat) (image : List Byte)
    (ha : a + image.length ≤ n) : ∀ p ∈ load m a image, p.1 < n := by
  induction image generalizing m a with
  | nil => exact hm
  | cons b bytes ih =>
    simp only [List.length_cons] at ha
    exact ih (inside_write hm (by omega) b) (a + 1) (by omega)

/-- What each byte reads as after an image is loaded. -/
theorem read_load {m : Memory} (hm : wf m) (a : Nat) (image : List Byte) (b : Nat) :
    read (load m a image) b = if h : a ≤ b ∧ b - a < image.length then image[b - a]'h.2 else read m b := by
  induction image generalizing m a with
  | nil => simp [load]
  | cons x xs ih =>
    simp only [load]
    rw [ih (wf_write hm a x), read_write hm]
    by_cases h0 : b = a
    · subst h0; simp
    · by_cases h1 : a + 1 ≤ b ∧ b - (a + 1) < xs.length
      · rw [dif_pos h1, dif_pos (by simp only [List.length_cons]; omega)]
        obtain ⟨k, rfl⟩ : ∃ k, b = a + 1 + k := ⟨b - (a + 1), by omega⟩
        simp only [show a + 1 + k - (a + 1) = k by omega, show a + 1 + k - a = k + 1 by omega, List.getElem_cons_succ]
      · rw [dif_neg h1, dif_neg (by simp only [List.length_cons]; omega), if_neg h0]

end Sys2Proof.Machine.Memory
end

