-- ==== Sys2Proof/Laws/State.lean ====
section
/-! SUPPORT. What each update of the state does to each field, one lemma per field per update, and register reads. -/

namespace Sys2Proof.Machine.State

variable (s : State)

/-! ### `setReg` -/

@[simp] theorem regs_setReg (r : RegIdx) (v : Word) : (s.setReg r v).regs = s.regs.set r.toNat v r.isLt := rfl
@[simp] theorem pc_setReg (r : RegIdx) (v : Word) : (s.setReg r v).pc = s.pc := rfl
@[simp] theorem halted_setReg (r : RegIdx) (v : Word) : (s.setReg r v).halted = s.halted := rfl
@[simp] theorem haltCause_setReg (r : RegIdx) (v : Word) : (s.setReg r v).haltCause = s.haltCause := rfl
@[simp] theorem mem_setReg (r : RegIdx) (v : Word) : (s.setReg r v).mem = s.mem := rfl
@[simp] theorem memSize_setReg (r : RegIdx) (v : Word) : (s.setReg r v).memSize = s.memSize := rfl

/-! ### `setPc` -/

@[simp] theorem regs_setPc (target : Word) : (s.setPc target).regs = s.regs := rfl
@[simp] theorem pc_setPc (target : Word) : (s.setPc target).pc = target := rfl
@[simp] theorem halted_setPc (target : Word) : (s.setPc target).halted = s.halted := rfl
@[simp] theorem haltCause_setPc (target : Word) : (s.setPc target).haltCause = s.haltCause := rfl
@[simp] theorem mem_setPc (target : Word) : (s.setPc target).mem = s.mem := rfl
@[simp] theorem memSize_setPc (target : Word) : (s.setPc target).memSize = s.memSize := rfl

/-! ### `advancePc` -/

@[simp] theorem regs_advancePc : s.advancePc.regs = s.regs := rfl
@[simp] theorem pc_advancePc : s.advancePc.pc = s.pc + 4 := rfl
@[simp] theorem halted_advancePc : s.advancePc.halted = s.halted := rfl
@[simp] theorem haltCause_advancePc : s.advancePc.haltCause = s.haltCause := rfl
@[simp] theorem mem_advancePc : s.advancePc.mem = s.mem := rfl
@[simp] theorem memSize_advancePc : s.advancePc.memSize = s.memSize := rfl

/-! ### `storeWord` -/

@[simp] theorem regs_storeWord (a v : Word) : (s.storeWord a v).regs = s.regs := rfl
@[simp] theorem pc_storeWord (a v : Word) : (s.storeWord a v).pc = s.pc := rfl
@[simp] theorem halted_storeWord (a v : Word) : (s.storeWord a v).halted = s.halted := rfl
@[simp] theorem haltCause_storeWord (a v : Word) : (s.storeWord a v).haltCause = s.haltCause := rfl
@[simp] theorem mem_storeWord (a v : Word) : (s.storeWord a v).mem = s.mem.writeWord a.toNat v := rfl
@[simp] theorem memSize_storeWord (a v : Word) : (s.storeWord a v).memSize = s.memSize := rfl

/-! ### `raise` -/

@[simp] theorem regs_raise (cause : HaltCause) : (s.raise cause).regs = s.regs := rfl
@[simp] theorem pc_raise (cause : HaltCause) : (s.raise cause).pc = s.pc := rfl
@[simp] theorem halted_raise (cause : HaltCause) : (s.raise cause).halted = true := rfl
@[simp] theorem haltCause_raise (cause : HaltCause) : (s.raise cause).haltCause = cause := rfl
@[simp] theorem mem_raise (cause : HaltCause) : (s.raise cause).mem = s.mem := rfl
@[simp] theorem memSize_raise (cause : HaltCause) : (s.raise cause).memSize = s.memSize := rfl

/-! ### Register reads -/

@[simp] theorem reg_setPc (target : Word) (q : RegIdx) : (s.setPc target).reg q = s.reg q := rfl
@[simp] theorem reg_advancePc (q : RegIdx) : s.advancePc.reg q = s.reg q := rfl
@[simp] theorem reg_storeWord (a v : Word) (q : RegIdx) : (s.storeWord a v).reg q = s.reg q := rfl
@[simp] theorem reg_raise (cause : HaltCause) (q : RegIdx) : (s.raise cause).reg q = s.reg q := rfl

theorem reg_setReg (r q : RegIdx) (v : Word) : (s.setReg r v).reg q = if q = r then v else s.reg q := by
  simp only [reg, setReg, Vector.get_eq_getElem, Vector.getElem_set, BitVec.toNat_eq, eq_comm (a := q.toNat)]
  rfl

@[simp] theorem reg_setReg_self (r : RegIdx) (v : Word) : (s.setReg r v).reg r = v := by simp [reg_setReg]

theorem reg_setReg_of_ne {r q : RegIdx} (v : Word) (h : q ≠ r) : (s.setReg r v).reg q = s.reg q := by
  simp [reg_setReg, h]

@[simp] theorem reg_reset (q : RegIdx) : reset.reg q = 0 := by
  simp [reg, reset, Vector.get_eq_getElem]

/-- Two states that agree on every register read and on every other field are equal. -/
theorem ext_reg {s t : State} (hreg : ∀ q, s.reg q = t.reg q) (hpc : s.pc = t.pc) (hh : s.halted = t.halted)
    (hc : s.haltCause = t.haltCause) (hm : s.mem = t.mem) (hz : s.memSize = t.memSize) : s = t := by
  obtain ⟨r, _, _, _, _, _⟩ := s
  obtain ⟨r', _, _, _, _, _⟩ := t
  simp only at hpc hh hc hm hz
  subst hpc hh hc hm hz
  congr 1
  refine Vector.ext fun i hi => ?_
  simpa [reg, Vector.get_eq_getElem] using hreg (BitVec.ofFin ⟨i, hi⟩)

/-! ### Memory reads of an updated state -/

@[simp] theorem loadWord_setReg (r : RegIdx) (v a : Word) : (s.setReg r v).loadWord a = s.loadWord a := rfl
@[simp] theorem loadWord_setPc (target a : Word) : (s.setPc target).loadWord a = s.loadWord a := rfl
@[simp] theorem loadWord_advancePc (a : Word) : s.advancePc.loadWord a = s.loadWord a := rfl

theorem fetch_eq_some {s : State} {w : Word} : s.fetch = some w ↔ s.inBounds s.pc ∧ s.loadWord s.pc = w := by
  unfold fetch; split <;> simp_all

theorem fetch_eq_none {s : State} : s.fetch = none ↔ ¬ s.inBounds s.pc := by
  unfold fetch; split <;> simp_all

end Sys2Proof.Machine.State
end

