-- ==== Sys2Proof/Laws/Exec.lean ====
section
/-! SUPPORT. What the operands and the ALU compute in the spec's integers, the next state of every meaning, and everything
a step can do. -/

namespace Sys2Proof.Machine

/-! ### The ALU and the operands in integers -/

theorem u32_toNat_add (a b : Word) : u32 ((a.toNat : Int) + b.toNat) = a + b := by
  apply BitVec.eq_of_toNat_eq
  simp only [BitVec.toNat_ofInt, BitVec.toNat_add]
  omega

theorem u32_toNat_sub (a b : Word) : u32 ((a.toNat : Int) - b.toNat) = a - b := by
  apply BitVec.eq_of_toNat_eq
  simp only [BitVec.toNat_ofInt, BitVec.toNat_sub]
  omega

/-- Adding a sign-extended pattern is adding the integer it denotes (40_execution_loop.md R101). -/
theorem u32_toNat_add_toInt {n : Nat} (a : Word) (v : BitVec n) :
    u32 ((a.toNat : Int) + v.toInt) = a + v.signExtend 32 := by
  have h : v.signExtend 32 = BitVec.ofInt 32 v.toInt := rfl
  rw [h, u32, BitVec.ofInt_add]
  congr 1
  apply BitVec.eq_of_toNat_eq
  simp only [BitVec.toNat_ofInt]
  omega

/-- The effective address as the spec writes it (43_load_store.md R132). -/
theorem effectiveAddress_eq (s : State) (base : RegIdx) (imm : BitVec 12) :
    s.effectiveAddress base imm = s.reg base + imm.signExtend 32 := rfl

theorem target_eq (s : State) (offset : Word) : s.target offset = s.pc + (offset - 4) := rfl

/-- After the advance, a target is the instruction's own address plus the offset (44_control_transfer.md R140). -/
theorem target_advancePc (s : State) (offset : Word) : s.advancePc.target offset = s.pc + offset := by
  simp only [target_eq, State.pc_advancePc]
  rw [BitVec.add_assoc, BitVec.add_comm 4, BitVec.sub_add_cancel]

theorem aluEq_eq_true {a b : Word} : aluEq a b = true ↔ a = b := by simp [aluEq]

/-! ### The next state of every instruction -/

/-- The state each instruction leads to: what `exec` answers with. -/
def nextState (i : Instr) (s : State) : State :=
  match i with
  | .add rd rs1 rs2 => s.setReg rd (s.reg rs1 + s.reg rs2)
  | .sub rd rs1 rs2 => s.setReg rd (s.reg rs1 - s.reg rs2)
  | .xor rd rs1 rs2 => s.setReg rd (s.reg rs1 ^^^ s.reg rs2)
  | .addi rd rs1 imm => s.setReg rd (s.reg rs1 + imm.signExtend 32)
  | .lw rd rs1 imm =>
    if s.inBounds (s.effectiveAddress rs1 imm) then s.setReg rd (s.loadWord (s.effectiveAddress rs1 imm))
    else s.raise .outOfBoundsLoad
  | .sw rs1 rs2 imm =>
    if s.inBounds (s.effectiveAddress rs1 imm) then s.storeWord (s.effectiveAddress rs1 imm) (s.reg rs2)
    else s.raise .outOfBoundsStore
  | .beq rs1 rs2 offset => if s.reg rs1 = s.reg rs2 then s.setPc (s.target (offset.signExtend 32)) else s
  | .lui rd imm => s.setReg rd (imm ++ 0#12)
  | .jal rd offset => (s.setReg rd s.pc).setPc (s.target (offset.signExtend 32))
  | .ecall => if s.reg 17 = 10 then s.raise .exit else s

/-- `exec` answers with `nextState`, for every instruction and every state. -/
theorem exec_eq (i : Instr) (s : State) : exec i s = .next (nextState i s) := by
  cases i with
  | add | sub | xor | addi | lui | jal => rfl
  | lw => simp only [exec, execLw, nextState]; split <;> rfl
  | sw => simp only [exec, execSw, nextState]; split <;> rfl
  | beq =>
    simp only [exec, execBeq, nextState, aluEq_eq_true]
    split <;> rfl
  | ecall =>
    simp only [exec, execEcall, nextState, aluEq_eq_true, Config.syscallReg, Config.exitCode]
    split <;> rfl

/-! ### Everything a step can do -/

/-- The state the execute stage leads to for whatever decode gives. -/
def nextDecoded (d : Decoded) (s : State) : State :=
  match d with
  | .instr i => nextState i s
  | .noOperation => s
  | .branchUnimplemented => s.raise .unimplementedInstruction
  | .opcodeUnimplemented => s.raise .unimplementedInstruction

theorem execDecoded_eq (d : Decoded) (s : State) : execDecoded d s = .next (nextDecoded d s) := by
  cases d with
  | instr i => exact exec_eq i s
  | noOperation | branchUnimplemented | opcodeUnimplemented => rfl

theorem step_of_halted {s : State} (h : s.halted = true) : step s = .next s := by
  simp only [step, h, execHalted, if_true]

theorem step_of_fetch_none {s : State} (h : s.halted = false) (hf : s.fetch = none) :
    step s = .next (s.raise .outOfBoundsFetch) := by
  simp [step, h, hf, execFetchOutOfBounds]

theorem step_of_fetch_some {s : State} {w : Word} (h : s.halted = false) (hf : s.fetch = some w) :
    step s = .next (nextDecoded (decodeWord w) s.advancePc) := by
  simp [step, h, hf, execDecoded_eq]

/-- The cases of a step: halted, fetch out of bounds, or a word executed. -/
theorem step_cases {s t : State} (h : step s = .next t) :
    (s.halted = true ∧ t = s) ∨
    (s.halted = false ∧ s.fetch = none ∧ t = s.raise .outOfBoundsFetch) ∨
    (s.halted = false ∧ ∃ w, s.fetch = some w ∧ t = nextDecoded (decodeWord w) s.advancePc) := by
  cases hh : s.halted with
  | true =>
    rw [step_of_halted hh] at h
    exact .inl ⟨rfl, by cases h; rfl⟩
  | false =>
    cases hf : s.fetch with
    | none =>
      rw [step_of_fetch_none hh hf] at h
      exact .inr (.inl ⟨rfl, rfl, by cases h; rfl⟩)
    | some w =>
      rw [step_of_fetch_some hh hf] at h
      exact .inr (.inr ⟨rfl, w, rfl, by cases h; rfl⟩)

end Sys2Proof.Machine
end

