-- ==== Sys2Proof/Laws/PerInstr.lean ====
section
/-! SUPPORT. Statements about every instruction as syntax, one lemma per constructor. `OpcodeOfEncoding`: the
canonical word carries the opcode of the instruction's own row (30_encoding.md R70). -/

namespace Sys2Proof.Laws

/-- The canonical word of the instruction and the match word of its row have the same opcode field. -/
def OpcodeOfEncoding.Statement (i : Instr) : Prop := opcode (encode i) = opcode i.mnemonic.row.pattern

theorem OpcodeOfEncoding.add (rd rs1 rs2 : RegIdx) : OpcodeOfEncoding.Statement (.add rd rs1 rs2) :=
  (opcode_formatR _ _ _ _ _ _).trans (by simp only [Instr.mnemonic]; decide)

theorem OpcodeOfEncoding.sub (rd rs1 rs2 : RegIdx) : OpcodeOfEncoding.Statement (.sub rd rs1 rs2) :=
  (opcode_formatR _ _ _ _ _ _).trans (by simp only [Instr.mnemonic]; decide)

theorem OpcodeOfEncoding.xor (rd rs1 rs2 : RegIdx) : OpcodeOfEncoding.Statement (.xor rd rs1 rs2) :=
  (opcode_formatR _ _ _ _ _ _).trans (by simp only [Instr.mnemonic]; decide)

theorem OpcodeOfEncoding.addi (rd rs1 : RegIdx) (imm : BitVec 12) : OpcodeOfEncoding.Statement (.addi rd rs1 imm) :=
  (opcode_formatI _ _ _ _ _).trans (by simp only [Instr.mnemonic]; decide)

theorem OpcodeOfEncoding.lw (rd rs1 : RegIdx) (imm : BitVec 12) : OpcodeOfEncoding.Statement (.lw rd rs1 imm) :=
  (opcode_formatI _ _ _ _ _).trans (by simp only [Instr.mnemonic]; decide)

theorem OpcodeOfEncoding.sw (rs1 rs2 : RegIdx) (imm : BitVec 12) : OpcodeOfEncoding.Statement (.sw rs1 rs2 imm) :=
  (opcode_formatS _ _ _ _ _).trans (by simp only [Instr.mnemonic]; decide)

theorem OpcodeOfEncoding.beq (rs1 rs2 : RegIdx) (offset : BitVec 13) :
    OpcodeOfEncoding.Statement (.beq rs1 rs2 offset) :=
  (opcode_formatB _ _ _ _ _).trans (by simp only [Instr.mnemonic]; decide)

theorem OpcodeOfEncoding.lui (rd : RegIdx) (imm : BitVec 20) : OpcodeOfEncoding.Statement (.lui rd imm) :=
  (opcode_formatU _ _ _).trans (by simp only [Instr.mnemonic]; decide)

theorem OpcodeOfEncoding.jal (rd : RegIdx) (offset : BitVec 21) : OpcodeOfEncoding.Statement (.jal rd offset) :=
  (opcode_formatJ _ _ _).trans (by simp only [Instr.mnemonic]; decide)

theorem OpcodeOfEncoding.ecall : OpcodeOfEncoding.Statement .ecall := rfl

end Sys2Proof.Laws
end

