-- ==== Sys2Proof/Laws/Reference.lean ====
section
/-! SUPPORT. The spec's field values and memory words as numbers, and the bit vectors the model keeps. -/

namespace Sys2Proof.Machine

theorem toNat_append {m n : Nat} (a : BitVec m) (b : BitVec n) : (a ++ b).toNat = a.toNat * 2 ^ n + b.toNat := by
  rw [BitVec.toNat_append, ← Nat.shiftLeft_add_eq_or_of_lt b.isLt, Nat.shiftLeft_eq]

/-- A field as the bit vector the decoder extracts. -/
theorem fieldValue_eq (v : Word) (hi lo : Nat) : fieldValue v hi lo = (v.extractLsb' lo (hi - lo + 1)).toNat := by
  rw [fieldValue, BitVec.extractLsb'_toNat, Nat.shiftRight_eq_div_pow]

/-- `sext` of a pattern's value is its two's-complement integer. -/
theorem sext_toNat {n : Nat} (v : BitVec (n + 1)) : sext (n + 1) v.toNat = v.toInt := by
  have h : 2 ^ (n + 1) = 2 * 2 ^ n := by ring
  rw [sext, BitVec.toInt_eq_toNat_cond, Nat.add_sub_cancel, h]
  by_cases hv : v.toNat < 2 ^ n
  · rw [if_pos hv, if_pos (by omega)]
  · rw [if_neg hv, if_neg (by omega)]
    push_cast
    ring

/-- A word read from memory, as the spec's sum of byte values. -/
theorem readWord_toNat (m : Memory) (a : Nat) : (m.readWord a).toNat = memReadValue m a := by
  rw [Memory.readWord, wordOfBytes, memReadValue, toNat_append, toNat_append, toNat_append]
  ring

end Sys2Proof.Machine
end

