-- ==== Sys2Proof/Laws/Run.lean ====
section
/-! SUPPORT. The state after one step, and the run loop one step at a time. -/

namespace Sys2Proof.Machine

/-- A step always answers with the state after it: no step faults or is refused. -/
theorem step_eq_after (s : State) : step s = .next s.after := by
  cases hh : s.halted with
  | true => rw [State.after, step_of_halted hh]
  | false =>
    cases hf : s.fetch with
    | none => rw [State.after, step_of_fetch_none hh hf]
    | some w => rw [State.after, step_of_fetch_some hh hf]

theorem after_of_fetch_none {s : State} (h : s.halted = false) (hf : s.fetch = none) :
    s.after = s.raise .outOfBoundsFetch := by
  rw [State.after, step_of_fetch_none h hf]

theorem after_of_fetch_some {s : State} {w : Word} (h : s.halted = false) (hf : s.fetch = some w) :
    s.after = nextDecoded (decodeWord w) s.advancePc := by
  rw [State.after, step_of_fetch_some h hf]

@[simp] theorem run_zero (s : State) : run 0 s = s := rfl

theorem run_succ_of_halted {s : State} (n : Nat) (h : s.halted = true) : run (n + 1) s = s := by simp [run, h]

theorem run_succ_of_running {s : State} (n : Nat) (h : s.halted = false) : run (n + 1) s = run n s.after := by
  simp [run, h]

end Sys2Proof.Machine
end

