-- ==== Sys2Proof/Tests/Slice0.lean ====
section
/-! SUPPORT. Tests with results taken from the spec (95_test_vectors.md unless another file is named), and for every
statement with hypotheses a state and operands that meet them. -/

namespace Sys2Proof.Tests

open Sys2Proof.Machine

/-! ### Helpers -/

/-- The reset state with `pc` and registers overridden and a word stored at `pc`. -/
def atWord (pc word : Word) (regs : List (RegIdx × Word)) : State :=
  regs.foldl (fun s p => s.setReg p.1 p.2)
    { State.reset with pc := pc, mem := Memory.writeWord [] pc.toNat word }

/-- The same with the bytes `78 56 34 12 EF CD AB 89` from address 0x100 (section 2.3). -/
def atWordWithData (pc word : Word) (regs : List (RegIdx × Word)) : State :=
  let s := atWord pc word regs
  { s with mem := Memory.load s.mem 0x100 [0x78, 0x56, 0x34, 0x12, 0xEF, 0xCD, 0xAB, 0x89] }

/-- The eight bytes from address 0x100. -/
def dataOf (s : State) : List Byte := (List.range 8).map (fun k => s.mem.read (0x100 + k))

/-- The encoder on string literals. -/
def enc (mnemonic operandText : String) (address : Nat) (table : LabelTable) : Except AsmError Word :=
  encodeLine mnemonic.toList operandText.toList address table

/-! ### Well-formedness: each check refuses an ill-formed term -/

theorem test_wf_beq_odd : (Instr.beq 1 2 3).wf = false := by decide
theorem test_wf_jal_odd : (Instr.jal 1 0x1FFFFF).wf = false := by decide

/-! ### Decoding: words written from the encodings (S7) -/

theorem test_decode_add : decodeWord 0x006283B3#32 = .instr (.add 7 5 6) := by decide
theorem test_decode_sub : decodeWord 0x40628E33#32 = .instr (.sub 28 5 6) := by decide
theorem test_decode_xor : decodeWord 0x0062CEB3#32 = .instr (.xor 29 5 6) := by decide
theorem test_decode_addi : decodeWord 0xFFD00313#32 = .instr (.addi 6 0 (-3)) := by decide
theorem test_decode_lw : decodeWord 0xFFC2A303#32 = .instr (.lw 6 5 (-4)) := by decide
theorem test_decode_sw : decodeWord 0xFE62AE23#32 = .instr (.sw 5 6 (-4)) := by decide
theorem test_decode_beq : decodeWord 0xFE008CE3#32 = .instr (.beq 1 0 (-8)) := by decide
theorem test_decode_lui : decodeWord 0x12345537#32 = .instr (.lui 10 0x12345) := by decide
theorem test_decode_jal : decodeWord 0xFF5FF0EF#32 = .instr (.jal 1 (-12)) := by decide
theorem test_decode_ecall : decodeWord 0x00000073#32 = .instr .ecall := by decide

/-- The immediate bits far apart: `beq` offset 4094, `jal` offset 1048574 and 2048 (section 2.4). -/
theorem test_decode_scattered :
    decodeWord 0x7E208FE3#32 = .instr (.beq 1 2 4094) ∧ decodeWord 0x7FFFF0EF#32 = .instr (.jal 1 1048574) ∧
    decodeWord 0x001000EF#32 = .instr (.jal 1 2048) := by decide

/-- The worked decodes of 30_encoding.md R69. -/
theorem test_immediates :
    [0x00A00293#32, 0xFE008CE3#32, 0xFFFFFFFF#32, 0#32].map
        (fun w => ((immI w).toInt, (immS w).toInt, (immB w).toInt, (immJ w).toInt)) =
      [(10, 5, 2052, 10), (-32, -7, -8, -1013792), (-1, -1, -2, -2), (0, 0, 0, 0)] := by decide

theorem test_immediates_u :
    [0x00A00293#32, 0xFE008CE3#32, 0xFFFFFFFF#32, 0#32].map (fun w => immediateU (immU w)) =
      [0x00A00000#32, 0xFE008000#32, 0xFFFFF000#32, 0#32] := by decide

/-- Words RV32I gives other meanings (30_encoding.md R81). -/
theorem test_decode_foreign :
    decodeWord 0x02628E33#32 = .noOperation ∧ decodeWord 0x00529463#32 = .branchUnimplemented ∧
    decodeWord 0x00008067#32 = .opcodeUnimplemented ∧ decodeWord 0x00100073#32 = .instr .ecall ∧
    decodeWord 0x00A2F293#32 = .instr (.addi 5 5 10) ∧ decodeWord 0x4062CEB3#32 = .instr (.xor 29 5 6) := by decide

/-- Bytes in memory order (20_memory.md R30), with the rest of the sequence. -/
theorem test_decode_bytes :
    decodeBytes [0x93, 0x02, 0xA0, 0x00, 0xFF] = some (.instr (.addi 5 0 10), [0xFF]) ∧
    decodeBytes [0x93, 0x02, 0xA0] = none := by decide

theorem test_decode_table_word :
    decodeTableWord 32 0x00A00293 = some (.addi 5 0 10) ∧ decodeTableWord 32 0 = none := by decide

theorem test_fetch_word :
    (State.reset.withFetchWord 32 0x00A00293).after =
      { State.reset.setReg 5 10 with pc := 4, mem := [(0, 0x93), (1, 0x02), (2, 0xA0)] } := by decide

/-! ### One step per row of the vectors -/

theorem test_add_wraps : (atWord 0 0x006283B3 [(5, 0xA), (6, 0xFFFFFFFD)]).after.reg 7 = 7 := by decide
theorem test_add_register_zero : (atWord 0 0x00628033 [(5, 0xA), (6, 0xFFFFFFFD)]).after.reg 0 = 7 := by decide
theorem test_sub_order : (atWord 0 0x40628E33 [(5, 0), (6, 1)]).after.reg 28 = 0xFFFFFFFF := by decide
theorem test_sub_in_place : (atWord 0 0x405282B3 [(5, 0x1234)]).after.reg 5 = 0 := by decide
theorem test_xor : (atWord 0 0x0062CEB3 [(5, 0xA), (6, 0xFFFFFFFD)]).after.reg 29 = 0xFFFFFFF7 := by decide
theorem test_xor_any_funct7 : (atWord 0 0x0262CEB3 [(5, 0xA), (6, 0xFFFFFFFD)]).after.reg 29 = 0xFFFFFFF7 := by decide
theorem test_no_operation :
    (atWord 0 0x4062D3B3 [(5, 0xA), (6, 0xFFFFFFFD)]).after =
      { atWord 0 0x4062D3B3 [(5, 0xA), (6, 0xFFFFFFFD)] with pc := 4 } := by decide
theorem test_addi_negative : (atWord 0 0x80000293 []).after.reg 5 = 0xFFFFF800 := by decide
theorem test_addi_misaligned_pc :
    (atWord 2 0x00A00293 []).after.pc = 6 ∧ (atWord 2 0x00A00293 []).after.reg 5 = 10 := by decide
theorem test_lui_replaces : (atWord 0 0x000012B7 [(5, 0xFFFFFFFF)]).after.reg 5 = 0x1000 := by decide
theorem test_lw_misaligned : (atWordWithData 0 0x0012A303 [(5, 0x100)]).after.reg 6 = 0xEF123456 := by decide
theorem test_lw_wraps_out_of_bounds :
    (atWord 0 0xFFF02303 []).after.haltCause = .outOfBoundsLoad ∧ (atWord 0 0xFFF02303 []).after.reg 6 = 0 ∧
    (atWord 0 0xFFF02303 []).after.pc = 4 := by decide
theorem test_sw_misaligned :
    dataOf (atWordWithData 0 0x0062A0A3 [(5, 0x100), (6, 0xAABBCCDD)]).after =
      [0x78, 0xDD, 0xCC, 0xBB, 0xAA, 0xCD, 0xAB, 0x89] := by decide
theorem test_sw_straddles :
    (atWord 0 0x0062A023 [(5, 0xFFFFD), (6, 0x01020304)]).after =
      { atWord 0 0x0062A023 [(5, 0xFFFFD), (6, 0x01020304)] with
        pc := 4, halted := true, haltCause := .outOfBoundsStore } := by decide
theorem test_beq_taken_wraps : (atWord 4 0xFE008CE3 []).after.pc = 0xFFFFFFFC := by decide
theorem test_beq_not_taken : (atWord 8 0x00028863 [(5, 3)]).after.pc = 0xC := by decide
theorem test_jal : (atWord 0x14 0xFF5FF0EF []).after.pc = 8 ∧ (atWord 0x14 0xFF5FF0EF []).after.reg 1 = 0x18 := by decide
theorem test_jal_register_zero : (atWord 0x14 0xFF5FF06F []).after.reg 0 = 0x18 := by decide
theorem test_ecall_exit :
    (atWord 4 0x00000073 [(17, 10)]).after.haltCause = .exit ∧ (atWord 4 0x00000073 [(17, 10)]).after.pc = 8 := by decide
theorem test_ecall_all_bits : (atWord 4 0x00000073 [(17, 0x0001000A)]).after.halted = false := by decide
theorem test_fetch_out_of_bounds :
    ({ State.reset with pc := 0xFFFFD } : State).after =
      { State.reset with pc := 0xFFFFD, halted := true, haltCause := .outOfBoundsFetch } := by decide
theorem test_empty_image :
    State.reset.after = { State.reset with pc := 4, halted := true, haltCause := .unimplementedInstruction } := by decide
theorem test_fence_word : (atWord 4 0x0FF0000F []).after.haltCause = .unimplementedInstruction := by decide

/-! ### The encoder and the assembler (2.3, 2.4, 2.7, S2, S5) -/

theorem test_encode_words :
    enc "add" "a0,ra,sp" 0 [] = .ok 0x00208533#32 ∧ enc "sub" "a0,ra,sp" 0 [] = .ok 0x40208533#32 ∧
    enc "xor" "a7,a0,zero" 0 [] = .ok 0x000548B3#32 ∧ enc "addi" "x5, x0, 10" 0 [] = .ok 0x00A00293#32 := by decide
theorem test_encode_memory :
    enc "lw" "x6, 8 ( sp )" 0 [] = .ok 0x00812303#32 ∧ enc "sw" "a0,12(sp)" 0 [] = .ok 0x00A12623#32 ∧
    enc "sw" "x6,-2048(x5)" 0 [] = .ok 0x8062A023#32 := by decide
theorem test_encode_reduced :
    enc "addi" "x5,x0,4095" 0 [] = .ok 0xFFF00293#32 ∧ enc "lui" "x5,-1" 0 [] = .ok 0xFFFFF2B7#32 ∧
    enc "jal" "x1,3" 0 [] = .ok 0x002000EF#32 ∧ enc "jal" "x1,1048576" 0 [] = .ok 0x800000EF#32 := by decide
theorem test_encode_beq_range :
    enc "beq" "x1,x2,L" 4 [("L".toList, 4102)] = .ok 0x7E208FE3#32 ∧
    enc "beq" "x1,x2,L" 4096 [("L".toList, 4)] = .ok 0x80208063#32 ∧
    enc "beq" "x1,x2,L" 4 [("L".toList, 4104)] = .error .branchRangeError ∧
    enc "beq" "x1,x2,L" 4098 [("L".toList, 4)] = .error .branchRangeError ∧
    enc "beq" "x1,x2,L" 0 [("L".toList, 7)] = .error .branchRangeError := by decide
theorem test_encode_unsupported :
    enc "ADDI" "x5,x0,1" 0 [] = .error .unsupportedMnemonic ∧ enc "nop" "" 0 [] = .error .unsupportedMnemonic := by decide
theorem test_encode_syntax :
    enc "addi" "x5,x0" 0 [] = .error .syntaxError ∧ enc "addi" "x5,x0,0x10" 0 [] = .error .syntaxError ∧
    enc "lw" "x6,(x5)" 0 [] = .error .syntaxError ∧ enc "lw" "x6,0(x5" 0 [] = .error .syntaxError ∧
    enc "ecall" "x1" 0 [] = .error .syntaxError ∧ enc "ecall" " " 0 [] = .error .syntaxError ∧
    enc "jal" "x1,loop" 0 [] = .error .syntaxError := by decide
theorem test_encode_registers :
    enc "addi" "x5,x32,1" 0 [] = .error .unknownRegister ∧ enc "addi" "t0,x0,1" 0 [] = .error .unknownRegister ∧
    enc "addi" "x05,x0,1" 0 [] = .ok 0x00100293#32 := by decide
theorem test_encode_order :
    enc "addi" " " 0 [] = .error .missingOperands ∧ enc "beq" "x1,x2,nowhere" 0 [] = .error .unresolvedLabel ∧
    enc "beq" "q1,x2,nowhere" 0 [] = .error .unknownRegister ∧ enc "ecall" "" 0 [] = .ok 0x00000073#32 := by decide

/-- The whole source of section 2.7. -/
def listing : List Text :=
  ["# c".toList, "".toList, "  .text".toList, "start:   # lbl".toList, " addi x5,x0,10   # ten".toList,
    ".word 5".toList, "end:".toList]

theorem test_assemble_listing :
    assemble listing = .ok [0x00A00293#32] ∧ pass1 listing = .ok [("start".toList, 0), ("end".toList, 4)] := by decide

theorem test_assemble_text :
    assembleText "loop:\naddi x1,x1,1\nbeq x1,x0,loop\n".toList =
      .ok [0x93, 0x80, 0x10, 0x00, 0xE3, 0x8C, 0x00, 0xFE] := by decide

theorem test_assemble_duplicate :
    assemble ["a:".toList, "a:".toList, "addi x1,x1,1".toList] = .error .duplicateLabel := by decide

/-- S4: no image although the first line is well formed, and the line the error is reported with. -/
theorem test_assemble_offender :
    assemble ["addi x5,x0,10".toList, "addi x5,x0 # two".toList] = .error .syntaxError ∧
    offendingLine ["addi x5,x0,10".toList, "addi x5,x0 # two".toList] = some "addi x5,x0".toList ∧
    offendingLine ["a:".toList, "a :".toList] = some "a :".toList ∧ offendingLine listing = none := by decide

/-! ### Witnesses: the hypotheses of each statement, met together -/

/-- The last word of memory, and the first address whose access runs past the end. -/
theorem witness_StepRunsTheDecodedInstruction :
    let s := atWord 0xFFFFC 0x00000013 []
    s.halted = false ∧ s.pc.toNat + 3 < s.memSize ∧
    decodeBytes [s.mem.read s.pc.toNat, s.mem.read (s.pc.toNat + 1), s.mem.read (s.pc.toNat + 2),
      s.mem.read (s.pc.toNat + 3)] = some (.instr (.addi 0 0 0), []) := by decide

theorem witness_DecodeOfEncodeIsIdentity :
    (Instr.beq 31 0 0x1000).wf = true ∧ (Instr.jal 31 0xFFFFE).wf = true ∧ (Instr.sw 0 31 0x800).wf = true := by decide

theorem witness_EncodeOfDecodeIsIdentityOnCanonicalWords :
    Mnemonic.beq.canonical 0x80208063#32 ∧ Mnemonic.xor.canonical 0x0062CEB3#32 ∧
    Mnemonic.ecall.canonical 0x00000073#32 := by decide

theorem witness_CanonicalEncodingsDoNotOverlap :
    Mnemonic.add.canonical 0x006283B3#32 ∧ (∀ m ∈ [Mnemonic.sub, .xor, .addi], ¬ m.canonical 0x006283B3#32) := by decide

theorem witness_FetchBoundsAndWord :
    (let s := { State.reset with pc := 0xFFFFD }; s.halted = false ∧ ¬ s.pc.toNat + 3 < s.memSize) ∧
    (let s := { State.reset with pc := 0xFFFFC }; s.pc.toNat + 3 < s.memSize) := by decide

/-- A running state, for every statement whose only hypothesis is `halted = 0`, with a fetch and without one. -/
theorem witness_running :
    State.reset.halted = false ∧ State.reset.fetch = some 0 ∧
    ({ State.reset with pc := 0x100000 } : State).fetch = none := by decide

theorem witness_halted : (State.reset.raise .exit).halted = true ∧ (State.reset.raise .exit).report.isSome = true := by decide

/-- A word for each clause of the table of R81. -/
theorem witness_ForeignWordsRunAsTheTableSays :
    [0x00A2F293#32, 0x00028303#32, 0x00628023#32, 0x0262CEB3#32, 0x02628E33#32, 0x0062F3B3#32, 0x00529463#32,
        0x30200073#32, 0x00000297#32, 0x00000001#32].map (fun w => (atWord 0 w []).fetch == some w) =
      List.replicate 10 true ∧
    [0x00A2F293#32, 0x00028303#32, 0x00628023#32, 0x0262CEB3#32, 0x02628E33#32, 0x0062F3B3#32, 0x00529463#32,
        0x30200073#32, 0x00000297#32, 0x00000001#32].map (fun w => (opcode w, funct3 w)) =
      [(0x13, 7), (0x03, 0), (0x23, 0), (0x33, 4), (0x33, 0), (0x33, 7), (0x63, 1), (0x73, 0), (0x17, 0), (0x01, 0)] ∧
    funct7 0x02628E33#32 = 0x01#7 := by decide

theorem witness_UnrecognisedRTypeIsNoOperation :
    (atWord 0 0xFE6283B3 []).fetch = some 0xFE6283B3#32 ∧ opcode 0xFE6283B3#32 = 0x33#7 ∧
    (funct3 0xFE6283B3#32 = 0#3 ∧ funct7 0xFE6283B3#32 ≠ 0x00#7 ∧ funct7 0xFE6283B3#32 ≠ 0x20#7) ∧
    (atWord 0 0x0062F3B3 []).fetch = some 0x0062F3B3#32 ∧ opcode 0x0062F3B3#32 = 0x33#7 ∧
    funct3 0x0062F3B3#32 ∈ [1#3, 2#3, 3#3, 5#3, 6#3, 7#3] := by decide

theorem witness_UnimplementedWordsHalt :
    (atWord 0 0x0052F463 []).fetch = some 0x0052F463#32 ∧ opcode 0x0052F463#32 = 0x63#7 ∧ funct3 0x0052F463#32 ≠ 0#3 ∧
    (atWord 0 0xFFFFFFFF []).fetch = some 0xFFFFFFFF#32 ∧
    opcode 0xFFFFFFFF#32 ∉ [0x33#7, 0x13#7, 0x03#7, 0x23#7, 0x63#7, 0x37#7, 0x6F#7, 0x73#7] := by decide

/-- Both bounds of `lw` and `sw`, on a memory in canonical form. -/
theorem witness_LwLoadsOrHalts_SwStoresOrHalts :
    let s := atWord 0 0x0062A023 [(5, 0xFFFFC)]
    s.mem.wf ∧ (s.effectiveAddress 5 0).toNat + 3 < s.memSize ∧ ¬ (s.effectiveAddress 5 1).toNat + 3 < s.memSize := by decide

theorem witness_BeqBranchesOnEquality :
    State.reset.reg 1 = State.reset.reg 2 ∧
    (atWord 0 0 [(1, 0x80000000)]).reg 1 ≠ (atWord 0 0 [(1, 0x80000000)]).reg 2 := by decide

theorem witness_EcallExitsOnTen :
    ((atWord 0 0 [(17, 10)]).reg 17).toNat = 10 ∧ ((atWord 0 0 [(17, 0x0001000A)]).reg 17).toNat ≠ 10 := by decide

/-- A taken `beq` and a `jal` whose targets are out of bounds. -/
theorem witness_TargetsAreRelativeToTheInstruction :
    (let s := atWord 4 0xFE008CE3 []
     s.halted = false ∧ s.fetch = some 0xFE008CE3#32 ∧ decodeWord 0xFE008CE3#32 = .instr (.beq 1 0 (-8)) ∧
       s.reg 1 = s.reg 0 ∧ ¬ s.after.pc.toNat + 3 < s.after.memSize) ∧
    (let s := atWord 0 0x800000EF []
     s.fetch = some 0x800000EF#32 ∧ decodeWord 0x800000EF#32 = .instr (.jal 1 (-1048576)) ∧
       ¬ s.after.pc.toNat + 3 < s.after.memSize) := by decide

/-- A word of each decode class that the statements about the instructions name, with a field the class does not examine
other than the encoder would set it. -/
theorem witness_decode_classes :
    [0x006283B3#32, 0x40628E33#32, 0x4062CEB3#32, 0x4052D293#32, 0x00028303#32, 0x00628023#32, 0x00028863#32,
        0x12345537#32, 0x008000EF#32, 0x30200073#32].map (fun w => (opcode w, funct3 w, funct7 w)) =
      [(0x33, 0, 0), (0x33, 0, 0x20), (0x33, 4, 0x20), (0x13, 5, 0x20), (0x03, 0, 0), (0x23, 0, 0), (0x63, 0, 0),
        (0x37, 5, 0x09), (0x6F, 0, 0), (0x73, 0, 0x18)] := by decide

/-- A store out of bounds and a load in bounds, with a register that neither lists. -/
theorem witness_instruction_frames :
    exec (.sw 5 6 1) (atWord 0 0 [(5, 0xFFFFC)]) =
      .next ((atWord 0 0 [(5, 0xFFFFC)]).raise .outOfBoundsStore) ∧
    exec (.lw 6 5 0) (atWord 0 0x12345537 []) = .next ((atWord 0 0x12345537 []).setReg 6 0x12345537) ∧
    (6 : RegIdx) ∉ (Instr.lw 6 5 0).reads ∧ (7 : RegIdx) ∉ (Instr.lw 6 5 0).reads ∧
    (7 : RegIdx) ∉ (Instr.lw 6 5 0).writes :=
  ⟨(exec_eq _ _).trans (congrArg _ (by decide)), (exec_eq _ _).trans (congrArg _ (by decide)), by decide⟩

/-- Registers 0 and 5 exchanged, which keeps 17. -/
theorem witness_RegistersAreInterchangeable :
    let f : RegIdx → RegIdx := Equiv.swap 0 5
    Function.Injective f ∧ f 17 = 17 ∧ (∀ r, (atWord 0 0 [(0, 9)]).reg (f r) = (atWord 0 0 [(5, 9)]).reg r) ∧
    SameControl (atWord 0 0 [(5, 9)]) (atWord 0 0 [(0, 9)]) ∧
    exec (.addi 5 5 1) (atWord 0 0 [(5, 9)]) = .next ((atWord 0 0 [(5, 9)]).setReg 5 10) := by
  refine ⟨(Equiv.swap _ _).injective, by decide, fun r => ?_, ⟨rfl, rfl, rfl⟩,
    (exec_eq _ _).trans (congrArg _ (by decide))⟩
  obtain ⟨i⟩ := r
  revert i
  decide

/-- A store that changes the first byte of the word it stores. -/
theorem witness_OnlySwChangesMemory :
    let s := atWordWithData 0 0x0062A023 [(5, 0x100), (6, 1)]
    s.mem.wf ∧ step s = .next s.after ∧ s.after.mem.read 0x100 ≠ s.mem.read 0x100 :=
  ⟨by decide, step_eq_after _, by decide⟩

/-- A halting step of each of the five kinds, from a running state with no cause. -/
theorem witness_halting_steps :
    [({ State.reset with pc := 0x100000 } : State), State.reset, atWord 0 0xFFF02303 [],
        atWord 0 0x0062A023 [(5, 0xFFFFF)], atWord 4 0x00000073 [(17, 10)]].map
        (fun s => (s.halted, s.haltCause, s.after.halted, s.after.haltCause)) =
      [(false, .none, true, .outOfBoundsFetch), (false, .none, true, .unimplementedInstruction),
        (false, .none, true, .outOfBoundsLoad), (false, .none, true, .outOfBoundsStore), (false, .none, true, .exit)] := by
  decide

theorem witness_step_answers : step State.reset = .next State.reset.after ∧ State.reset.pc.toNat % 2 = 0 :=
  ⟨step_eq_after _, by decide⟩

theorem witness_Inv : (atWord 0 0x0062A023 [(5, 0x100)]).Inv :=
  ⟨by decide, by decide, by decide, by decide⟩

/-- The smallest memory, filled by its image. -/
theorem witness_resetWith :
    (State.resetWith 4 [1, 2, 3, 4]).isSome = true ∧ (State.resetWith 4 [1, 2, 3, 4, 5]) = none ∧
    (State.resetWith 4294967296 []).isSome = true := by decide

theorem witness_WordAccess_EqualReads : Memory.wf [(3, 1), (0x100, 0x78)] := by decide

/-- A `sw` at 0 that stores over the word at 4. -/
theorem witness_StoreOverTheNextInstructionIsExecuted :
    let s := atWord 0 0x0062A023 [(5, 4), (6, 0x00A00293)]
    s.mem.wf ∧ s.halted = false ∧ s.fetch = some 0x0062A023#32 ∧
    decodeWord 0x0062A023#32 = .instr (.sw 5 6 0) ∧ s.effectiveAddress 5 0 = s.pc + 4 ∧
    (s.pc + 4).toNat + 3 < s.memSize := by decide

theorem witness_RunningPastTheImageHalts :
    State.reset.halted = false ∧ State.reset.pc.toNat + 3 < State.reset.memSize ∧
    ∀ a, State.reset.pc.toNat ≤ a → State.reset.mem.read a = 0 :=
  ⟨by decide, by decide, fun _ _ => rfl⟩

theorem witness_RunSplitsAtAnyBudget : (run 3 (atWord 0x30 0x000000EF [])).halted = false := by decide

theorem witness_TheEndOfARunIsUnique :
    EndsIn (atWord 4 0x00000073 [(17, 10)]) (atWord 4 0x00000073 [(17, 10)]).after ∧
    EndsProperly (atWord 4 0x00000073 [(17, 10)]) :=
  ⟨⟨1, by decide, by decide⟩, ⟨_, ⟨1, rfl, by decide⟩, by decide⟩⟩

theorem witness_packed_words :
    pack (.sw 6 (-4) 5) 0 = .ok 0xFE62AE23#32 ∧ Mnemonic.sw.canonical 0xFE62AE23#32 := by decide

/-- Both bounds of the offset, and the first values outside them. -/
theorem witness_BeqStoresTheOffsetFromTheNextInstruction :
    beqOffset 4102 4 = 4094 ∧ beqOffset 4 4096 = -4096 ∧ beqOffset 4104 4 = 4096 ∧ beqOffset 4 4098 = -4098 ∧
    beqOffset 7 0 = 3 := by decide

/-- The loop of S3, its `beq` taken at address 4: the next fetch is at `loop - 4`, which is no address of memory. -/
theorem witness_AssembledBeqLandsFourBytesBeforeItsLabel :
    let s := atWord 4 0xFE008CE3 []
    pack (.beq 1 0 0) 4 = .ok 0xFE008CE3#32 ∧ s.halted = false ∧ s.pc = BitVec.ofNat 32 4 ∧
    s.fetch = some 0xFE008CE3#32 ∧ s.reg 1 = s.reg 0 := by decide

theorem witness_RegisterNamesAreTheTable :
    naturalOfText "31".toList = some 31 ∧ naturalOfText "32".toList = some 32 ∧
    registerOfText "x05".toList = some 5 ∧ registerOfText "x32".toList = none := by decide

/-- Each check of R162 reached, with those before it passed. -/
theorem witness_EncoderChecksInOrder :
    mnemonicOfText "nop".toList = none ∧ mnemonicOfText "beq".toList = some .beq ∧ trim " ".toList = [] ∧
    registerTokens .beq "x1,x2".toList = none ∧
    registerTokens .beq "q1,x2,L".toList = some ["q1".toList, "x2".toList] ∧ registerOfText "q1".toList = none ∧
    shapeRRL "x1,x2,L".toList = some ("x1".toList, "x2".toList, "L".toList) ∧ registerOfText "x1".toList = some 1 ∧
    LabelTable.find [] "L".toList = none ∧ LabelTable.find [("L".toList, 4)] "L".toList = some 4 ∧
    registerTokens .ecall [] = some [] ∧ registerTokens .ecall " ".toList = none := by decide

theorem witness_PassOneRecordsLabelAddresses :
    classifyLine "end:".toList = .label "end".toList ∧
    (pass1 (listing.take 6 ++ "end:".toList :: [])).toOption.isSome = true := by decide

theorem witness_PassOneRejectsExactlyDuplicates :
    (labelNames listing).Nodup ∧ ¬ (labelNames ["a:".toList, "a:".toList]).Nodup := by decide

theorem witness_PassTwo_EncoderEmits :
    (assemble listing).toOption.isSome = true ∧
    (instructionLines listing)[0]? = some ("addi".toList, "x5,x0,10".toList) ∧
    enc "addi" "x5,x0,10" 0 [] = .ok 0x00A00293#32 := by decide

theorem witness_LoadedWordsAreFetched :
    (State.resetWith 8 (imageOf [0x00A00293, 0x00000073])).isSome = true ∧
    ([0x00A00293, 0x00000073] : List Word)[1]? = some 0x00000073#32 := by decide

end Sys2Proof.Tests
end

section
/-! SUPPORT. What the statements about registers, invariants and reset share: a property kept by the updates of the state is
kept by every step; decoded offsets are even; a register write seen beside another one. -/

namespace Sys2Proof.Machine

/-! ### Decoded offsets are even -/

/-- The decoder gives only instructions the encodings can carry: `beq` and `jal` offsets have bit 0 clear
(30_encoding.md R66, R68). -/
theorem wf_of_decodeWord {w : Word} {i : Instr} (h : decodeWord w = .instr i) : i.wf = true := by
  unfold decodeWord at h
  split at h <;> cases h
  case h_8 => rw [Instr.wf, branchOffsetOk, getLsbD_immB _ _ (by omega)]; rfl
  case h_11 => rw [Instr.wf, jumpOffsetOk, getLsbD_immJ _ _ (by omega)]; rfl
  all_goals rfl

/-- Sign extension to a word keeps bit 0, so an even pattern gives an even offset. -/
theorem signExtend_toNat_mod_two {n : Nat} {v : BitVec (n + 1)} (h : v.getLsbD 0 = false) :
    (v.signExtend 32).toNat % 2 = 0 := by
  have hbit : (v.signExtend 32).getLsbD 0 = false := by
    rw [BitVec.getLsbD_signExtend, if_pos (Nat.succ_pos n), h, Bool.and_false]
  simpa only [BitVec.getLsbD, Nat.testBit_zero, decide_eq_false_iff_not, Nat.mod_two_not_eq_one] using hbit

/-! ### Properties every step keeps -/

/-- A property of the state that every update a step is made of keeps: register writes, the `pc` advance, transfers to even
offsets, halts, and stores in bounds. -/
structure KeptByUpdates (P : State → Prop) : Prop where
  setReg : ∀ (s : State) (r : RegIdx) (v : Word), P s → P (s.setReg r v)
  advancePc : ∀ s : State, P s → P s.advancePc
  transfer : ∀ (s : State) (offset : Word), offset.toNat % 2 = 0 → P s → P (s.setPc (s.target offset))
  raise : ∀ (s : State) (cause : HaltCause), cause ≠ .none → P s → P (s.raise cause)
  storeWord : ∀ (s : State) (a v : Word), s.inBounds a → P s → P (s.storeWord a v)

namespace KeptByUpdates

variable {P : State → Prop} (hP : KeptByUpdates P)
include hP

/-- Every instruction the encodings can carry is made of those updates. -/
theorem nextState {i : Instr} (hi : i.wf = true) {s : State} (hs : P s) : P (nextState i s) := by
  cases i with
  | add | sub | xor | addi | lui => exact hP.setReg _ _ _ hs
  | lw =>
    simp only [Machine.nextState]
    split
    · exact hP.setReg _ _ _ hs
    · exact hP.raise _ _ (by decide) hs
  | sw =>
    simp only [Machine.nextState]
    split
    · exact hP.storeWord _ _ _ ‹_› hs
    · exact hP.raise _ _ (by decide) hs
  | beq _ _ offset =>
    simp only [Machine.nextState]
    split
    · exact hP.transfer _ _ (signExtend_toNat_mod_two (by simpa [Instr.wf, branchOffsetOk] using hi)) hs
    · exact hs
  | jal rd offset =>
    exact hP.transfer _ _ (signExtend_toNat_mod_two (by simpa [Instr.wf, jumpOffsetOk] using hi))
      (hP.setReg s rd s.pc hs)
  | ecall =>
    simp only [Machine.nextState]
    split
    · exact hP.raise _ _ (by decide) hs
    · exact hs

/-- The execute stage keeps the property for whatever the decoder gives. -/
theorem nextDecoded (w : Word) {s : State} (hs : P s) : P (nextDecoded (decodeWord w) s) := by
  cases hd : decodeWord w with
  | instr i => exact hP.nextState (wf_of_decodeWord hd) hs
  | noOperation => exact hs
  | branchUnimplemented | opcodeUnimplemented => exact hP.raise _ _ (by decide) hs

/-- Every step keeps the property. -/
theorem step {s t : State} (hs : P s) (h : step s = .next t) : P t := by
  obtain ⟨-, rfl⟩ | ⟨-, -, rfl⟩ | ⟨-, w, -, rfl⟩ := step_cases h
  · exact hs
  · exact hP.raise _ _ (by decide) hs
  · exact hP.nextDecoded w (hP.advancePc _ hs)

end KeptByUpdates

/-- The updates keep the invariant of the machine: only a store touches memory, and only inside it; only a halt touches
`halted`, and it records a cause. -/
theorem keptByUpdates_inv : KeptByUpdates State.Inv where
  setReg _ _ _ hs := ⟨hs.memory, hs.memoryInside, hs.memSize, hs.halt⟩
  advancePc _ hs := ⟨hs.memory, hs.memoryInside, hs.memSize, hs.halt⟩
  transfer _ _ _ hs := ⟨hs.memory, hs.memoryInside, hs.memSize, hs.halt⟩
  raise _ _ hcause hs := ⟨hs.memory, hs.memoryInside, hs.memSize, by simp [hcause]⟩
  storeWord _ _ v ha hs :=
    ⟨Memory.wf_writeWord hs.memory _ v, Memory.inside_writeWord hs.memoryInside ha v, hs.memSize, hs.halt⟩

/-- The updates keep an even `pc`: 4 and every offset are even, and 2^32 is too. -/
theorem keptByUpdates_pc_even : KeptByUpdates (fun s => s.pc.toNat % 2 = 0) where
  setReg _ _ _ hs := hs
  advancePc s hs := by simp only [State.pc_advancePc]; bv_omega
  transfer s offset ho hs := by simp only [State.pc_setPc, target_eq]; bv_omega
  raise _ _ _ hs := hs
  storeWord _ _ _ _ hs := hs

/-- No update changes `MEM_SIZE`. -/
theorem keptByUpdates_memSize (n : Nat) : KeptByUpdates (fun s => s.memSize = n) where
  setReg _ _ _ hs := hs
  advancePc _ hs := hs
  transfer _ _ _ hs := hs
  raise _ _ _ hs := hs
  storeWord _ _ _ _ hs := hs

/-! ### Reset -/

/-- Exactly the requests in the domain of reset are answered, with the image loaded into the reset state
(70_reset_and_hazards.md R251). -/
theorem resetWith_eq_some {memSize : Nat} {image : List Byte} {s : State} :
    State.resetWith memSize image = some s ↔ (Config.memSizeOk memSize ∧ image.length ≤ memSize) ∧
      { State.reset with mem := Memory.load [] Config.loadBase image, memSize := memSize } = s := by
  simp only [State.resetWith, Option.ite_none_right_eq_some, Option.some.injEq]

/-! ### Two runs of one instruction -/

/-- States chosen by one test in two runs are related when the choices are. -/
theorem rel_ite {R : State → State → Prop} {p q : Prop} [Decidable p] [Decidable q] {a b c d : State} (hpq : q ↔ p)
    (hpos : R a b) (hneg : R c d) : R (if p then a else c) (if q then b else d) := by
  by_cases hp : p
  · rwa [if_pos hp, if_pos (hpq.2 hp)]
  · rwa [if_neg hp, if_neg (hp ∘ hpq.1)]

/-- The effective address depends on the value of its base register only. -/
theorem effectiveAddress_congr {s t : State} {base base' : RegIdx} {imm : BitVec 12} (h : t.reg base' = s.reg base) :
    t.effectiveAddress base' imm = s.effectiveAddress base imm := by
  rw [effectiveAddress_eq, effectiveAddress_eq, h]

/-! ### A register an instruction does not read -/

namespace State

/-- Of two writes to one register the second remains. -/
theorem setReg_setReg_self (s : State) (r : RegIdx) (v w : Word) : (s.setReg r v).setReg r w = s.setReg r w := by
  simp only [setReg, Vector.set_set]

/-- Writes to two registers commute. -/
theorem setReg_setReg_comm (s : State) {r q : RegIdx} (v w : Word) (h : r ≠ q) :
    (s.setReg r v).setReg q w = (s.setReg q w).setReg r v := by
  simp only [setReg, Vector.set_comm (xs := s.regs) v w (fun e => h (BitVec.eq_of_toNat_eq e))]

end State

/-- How a change of register `r` to `v` in `s` shows in the state an instruction leads to (`t` without the change, `t'` with
it): not at all where the instruction, which writes `ws`, overwrites `r`; otherwise as that change alone. -/
def ChangeConfined (ws : List RegIdx) (r : RegIdx) (v : Word) (s t t' : State) : Prop :=
  (r ∈ ws ∧ t' = t) ∨ (t' = t.setReg r v ∧ t.reg r = s.reg r)

/-- A change before a register write is overwritten by it or passes it unharmed. -/
theorem changeConfined_setReg (s : State) (r rd : RegIdx) (v w : Word) :
    ChangeConfined [rd] r v s (s.setReg rd w) ((s.setReg r v).setReg rd w) := by
  by_cases h : r = rd
  · subst h
    exact .inl ⟨List.mem_singleton_self r, s.setReg_setReg_self r v w⟩
  · exact .inr ⟨s.setReg_setReg_comm v w h, s.reg_setReg_of_ne w h⟩

/-- A transfer confines no less than what came before it. -/
theorem ChangeConfined.setPc {ws : List RegIdx} {r : RegIdx} {v : Word} {s t t' : State}
    (h : ChangeConfined ws r v s t t') (target : Word) :
    ChangeConfined ws r v s (t.setPc target) (t'.setPc target) := by
  obtain ⟨hw, rfl⟩ | ⟨rfl, hold⟩ := h
  · exact .inl ⟨hw, rfl⟩
  · exact .inr ⟨rfl, hold⟩

/-- An instruction that does not read `r` confines every change of it. -/
theorem changeConfined_nextState {i : Instr} {r : RegIdx} (hr : r ∉ i.reads) (s : State) (v : Word) :
    ChangeConfined i.writes r v s (nextState i s) (nextState i (s.setReg r v)) := by
  have hread : ∀ q ∈ i.reads, (s.setReg r v).reg q = s.reg q := fun q hq =>
    s.reg_setReg_of_ne v fun e => hr (e ▸ hq)
  cases i <;> simp only [Instr.reads, List.forall_mem_cons] at hread
  case add | sub | xor | addi =>
    simp only [nextState, hread]
    exact changeConfined_setReg _ _ _ _ _
  case lui => exact changeConfined_setReg _ _ _ _ _
  case lw =>
    simp only [nextState, effectiveAddress_congr hread.1, State.loadWord_setReg]
    exact rel_ite Iff.rfl (changeConfined_setReg _ _ _ _ _) (.inr ⟨rfl, rfl⟩)
  case sw =>
    simp only [nextState, effectiveAddress_congr hread.1, hread]
    exact rel_ite Iff.rfl (.inr ⟨rfl, rfl⟩) (.inr ⟨rfl, rfl⟩)
  case jal => exact (changeConfined_setReg _ _ _ _ _).setPc _
  case beq | ecall =>
    simp only [nextState, hread]
    exact rel_ite Iff.rfl (.inr ⟨rfl, rfl⟩) (.inr ⟨rfl, rfl⟩)

/-! ### States that differ by a renaming of the registers -/

/-- `t` is `s` with the contents of every register `r` in register `f r`, and all else the same. -/
structure RegsRenamed (f : RegIdx → RegIdx) (s t : State) : Prop where
  reg : ∀ r, t.reg (f r) = s.reg r
  pc : t.pc = s.pc
  mem : t.mem = s.mem
  control : SameControl s t

namespace RegsRenamed

variable {f : RegIdx → RegIdx} {s t : State}

theorem memSize (h : RegsRenamed f s t) : t.memSize = s.memSize := h.control.2.2

theorem setReg (hf : Function.Injective f) (h : RegsRenamed f s t) (r : RegIdx) (v : Word) :
    RegsRenamed f (s.setReg r v) (t.setReg (f r) v) where
  reg q := by simp only [State.reg_setReg, hf.eq_iff, h.reg]
  pc := h.pc
  mem := h.mem
  control := h.control

theorem setPc (h : RegsRenamed f s t) (target : Word) : RegsRenamed f (s.setPc target) (t.setPc target) :=
  ⟨h.reg, rfl, h.mem, h.control⟩

theorem raise (h : RegsRenamed f s t) (cause : HaltCause) : RegsRenamed f (s.raise cause) (t.raise cause) :=
  ⟨h.reg, h.pc, h.mem, rfl, rfl, h.memSize⟩

theorem storeWord (h : RegsRenamed f s t) (a v : Word) : RegsRenamed f (s.storeWord a v) (t.storeWord a v) :=
  ⟨h.reg, h.pc, congrArg (·.writeWord a.toNat v) h.mem, h.control⟩

theorem inBounds (h : RegsRenamed f s t) (a : Word) : t.inBounds a ↔ s.inBounds a := by
  rw [State.inBounds, State.inBounds, h.memSize]

theorem loadWord (h : RegsRenamed f s t) (a : Word) : t.loadWord a = s.loadWord a :=
  congrArg (·.readWord a.toNat) h.mem

theorem target (h : RegsRenamed f s t) (offset : Word) : t.target offset = s.target offset := by
  rw [target_eq, target_eq, h.pc]

/-- The renamed instruction leads the renamed state to the renamed result; 17 must keep its name because `ecall` reads it. -/
theorem nextState (hf : Function.Injective f) (h17 : f 17 = 17) (h : RegsRenamed f s t) (i : Instr) :
    RegsRenamed f (nextState i s) (nextState (i.rename f) t) := by
  cases i with
  | add | sub | xor | addi =>
    simp only [Instr.rename, Machine.nextState, h.reg]
    exact h.setReg hf _ _
  | lui => exact h.setReg hf _ _
  | lw =>
    simp only [Instr.rename, Machine.nextState, effectiveAddress_congr (h.reg _), h.loadWord]
    exact rel_ite (h.inBounds _) (h.setReg hf _ _) (h.raise _)
  | sw =>
    simp only [Instr.rename, Machine.nextState, effectiveAddress_congr (h.reg _), h.reg]
    exact rel_ite (h.inBounds _) (h.storeWord _ _) (h.raise _)
  | beq =>
    simp only [Instr.rename, Machine.nextState, h.reg, h.target]
    exact rel_ite Iff.rfl (h.setPc _) h
  | jal =>
    simp only [Instr.rename, Machine.nextState, h.pc, h.target]
    exact (h.setReg hf _ _).setPc _
  | ecall =>
    have hcode : t.reg 17 = s.reg 17 := by rw [← h.reg 17, h17]
    simp only [Instr.rename, Machine.nextState, hcode]
    exact rel_ite Iff.rfl (h.raise _) h

end RegsRenamed

/-! ### The registers an instruction writes -/

/-- A register write leaves every other register. -/
theorem sameRegsExcept_setReg (s : State) (rd : RegIdx) (v : Word) : SameRegsExcept [rd] s (s.setReg rd v) :=
  fun _ hq => s.reg_setReg_of_ne v (List.ne_of_not_mem_cons hq)

/-- An instruction leaves every register it is not listed to write (10_state.md R13); a halting `lw` leaves all. -/
theorem sameRegsExcept_nextState (i : Instr) (s : State) : SameRegsExcept i.writes s (nextState i s) := by
  cases i with
  | add | sub | xor | addi | lui | jal => exact sameRegsExcept_setReg s _ _
  | lw =>
    simp only [nextState]
    split
    · exact sameRegsExcept_setReg s _ _
    · exact fun _ _ => rfl
  | sw | beq | ecall =>
    simp only [nextState]
    split <;> exact fun _ _ => rfl

end Sys2Proof.Machine
end

section
/-! PROOFS. The statements about the state: registers, invariants and reset (10_state.md). -/

namespace Sys2Proof.Machine

/-- The state `exec` leads to is `nextState`. -/
theorem eq_nextState_of_exec {i : Instr} {s t : State} (h : exec i s = .next t) : t = nextState i s := by
  rw [exec_eq] at h
  cases h
  rfl

/-- Settles O30: the change is overwritten, or is the only difference between the two results. -/
theorem unlistedRegistersAreNotRead : Obligations.UnlistedRegistersAreNotRead := by
  unfold Obligations.UnlistedRegistersAreNotRead
  intro i s t r v hr h
  obtain rfl := eq_nextState_of_exec h
  refine ⟨_, exec_eq i _, ?_⟩
  obtain ⟨hw, he⟩ | ⟨he, hold⟩ := changeConfined_nextState hr s v <;> rw [he]
  · exact ⟨rfl, rfl, ⟨rfl, rfl, rfl⟩, fun _ _ => rfl, .inl rfl, fun hnw => absurd hw hnw⟩
  · exact ⟨rfl, rfl, ⟨rfl, rfl, rfl⟩, sameRegsExcept_setReg _ _ _, .inr ⟨State.reg_setReg_self _ _ _, hold⟩,
      fun _ => State.reg_setReg_self _ _ _⟩

/-- Settles O31, by the simulation of `RegsRenamed`. -/
theorem registersAreInterchangeable : Obligations.RegistersAreInterchangeable := by
  unfold Obligations.RegistersAreInterchangeable
  intro f hf h17 s t hreg hpc hmem hcontrol i s' h
  obtain rfl := eq_nextState_of_exec h
  have hst : RegsRenamed f s t := ⟨hreg, hpc, hmem, hcontrol⟩
  have hnext := hst.nextState hf h17 i
  exact ⟨_, exec_eq _ t, hnext.reg, hnext.pc, hnext.mem, hnext.control⟩

/-- Settles O36. -/
theorem everyStepKeepsTheInvariant : Obligations.EveryStepKeepsTheInvariant := by
  unfold Obligations.EveryStepKeepsTheInvariant
  exact fun _ _ => keptByUpdates_inv.step

/-- Settles O38: the decoder gives even offsets only. -/
theorem everyStepKeepsThePcEven : Obligations.EveryStepKeepsThePcEven := by
  unfold Obligations.EveryStepKeepsThePcEven
  exact fun _ _ => keptByUpdates_pc_even.step

/-- Settles O29. -/
theorem onlyListedRegistersAreWritten : Obligations.OnlyListedRegistersAreWritten := by
  unfold Obligations.OnlyListedRegistersAreWritten
  intro i s t h
  obtain rfl := eq_nextState_of_exec h
  exact sameRegsExcept_nextState i s

/-- Settles O42, from what a loaded image reads as on the empty memory. -/
theorem resetLoadsTheImage : Obligations.ResetLoadsTheImage := by
  unfold Obligations.ResetLoadsTheImage
  intro memSize image hlo hhi
  refine ⟨fun hfit => ⟨_, resetWith_eq_some.2 ⟨⟨⟨hlo, hhi⟩, hfit⟩, rfl⟩, rfl, rfl, rfl, rfl, State.reg_reset,
    fun a ha => ?_, fun a ha => ?_⟩, fun hlong => ?_⟩
  · simp [Memory.read_load Memory.wf_nil, Config.loadBase, ha]
  · simp [Memory.read_load Memory.wf_nil, Config.loadBase, ha, Memory.unlisted]
  · exact if_neg fun ⟨_, hfit⟩ => Nat.not_le_of_lt hlong hfit

/-- Settles O27. -/
theorem registerZeroIsOrdinary : Obligations.RegisterZeroIsOrdinary := by
  unfold Obligations.RegisterZeroIsOrdinary
  refine ⟨State.reg_reset 0, State.reg_setReg, fun s rs1 imm => ⟨_, exec_eq _ s, ?_⟩⟩
  rw [u32_toNat_add_toInt]
  exact State.reg_setReg_self s 0 _

/-- Settles O33. -/
theorem stepKeepsMemSize : Obligations.StepKeepsMemSize := by
  unfold Obligations.StepKeepsMemSize
  exact fun s _ => (keptByUpdates_memSize s.memSize).step rfl

/-- Settles O37: the image is loaded byte by byte into the empty memory, in canonical form and inside its size. -/
theorem resetMeetsTheInvariant : Obligations.ResetMeetsTheInvariant := by
  unfold Obligations.ResetMeetsTheInvariant
  refine ⟨⟨Memory.wf_nil, by simp [State.reset], by decide, by decide⟩, fun memSize image s h => ?_⟩
  obtain ⟨⟨hsize, hfit⟩, rfl⟩ := resetWith_eq_some.1 h
  exact ⟨Memory.wf_load Memory.wf_nil _ image,
    Memory.inside_load (by simp) _ image (by simpa [Config.loadBase] using hfit), hsize, iff_of_true rfl rfl⟩

end Sys2Proof.Machine
end

section
/-! SUPPORT. What the statements about memory share: a word composed of its bytes by shifts, the entries of a canonical
memory told from its reads, and the step of a `sw`. -/

namespace Sys2Proof.Machine

/-! ### Words and their bytes -/

/-- A concatenation, widened, is the or of its low part and its high part shifted above it. -/
theorem setWidth_append_eq_or {m n : Nat} (x : BitVec m) (y : BitVec n) (k : Nat) :
    (x ++ y).setWidth k = y.setWidth k ||| x.setWidth k <<< n := by
  refine BitVec.eq_of_getLsbD_eq fun i hi => ?_
  simp only [BitVec.getLsbD_setWidth, BitVec.getLsbD_append, BitVec.getLsbD_or, BitVec.getLsbD_shiftLeft, hi,
    decide_true, Bool.true_and]
  split
  · simp [*]
  · rw [BitVec.getLsbD_of_ge y i (by omega)]
    simp [*, show i - n < k by omega]

/-- Four bytes composed little-endian are the or of the bytes shifted to their places (20_memory.md R36). -/
theorem wordOfBytes_eq_or (b0 b1 b2 b3 : Byte) :
    wordOfBytes b0 b1 b2 b3 =
      b0.setWidth 32 ||| (b1.setWidth 32 <<< 8) ||| (b2.setWidth 32 <<< 16) ||| (b3.setWidth 32 <<< 24) := by
  rw [← BitVec.setWidth_eq (wordOfBytes b0 b1 b2 b3), wordOfBytes, setWidth_append_eq_or, setWidth_append_eq_or,
    setWidth_append_eq_or]
  simp only [BitVec.shiftLeft_or_distrib, ← BitVec.shiftLeft_add, BitVec.or_assoc]

namespace Memory

/-! ### The canonical form -/

/-- A canonical memory lists exactly the bytes that do not read as unlisted. -/
theorem mem_iff_read {m : Memory} (hm : wf m) {p : Host.Cell} : p ∈ m ↔ read m p.1 = p.2 ∧ p.2 ≠ unlisted := by
  induction m with
  | nil => simpa using fun h => h.symm
  | cons c m ih =>
    obtain ⟨hlt, hne, hw⟩ := wf_cons.1 hm
    rw [List.mem_cons, ih hw, read_cons]
    by_cases hc : c.1 = p.1
    · have hbelow : read m p.1 = unlisted := read_below fun q hq => hc ▸ hlt q hq
      rw [if_pos hc, hbelow]
      constructor
      · rintro (rfl | ⟨h, h'⟩)
        · exact ⟨rfl, hne⟩
        · exact absurd h.symm h'
      · exact fun ⟨h, _⟩ => .inl (Prod.ext hc h).symm
    · rw [if_neg hc]
      exact or_iff_right fun h => hc (h ▸ rfl)

/-- Canonical memories that read the same are the same list: they list the same entries in the same order. -/
theorem ext_read {m m' : Memory} (hm : wf m) (hm' : wf m') (h : ∀ a, read m a = read m' a) : m = m' := by
  have : Std.Asymm fun p q : Host.Cell => p.1 < q.1 := ⟨fun _ _ => Nat.lt_asymm⟩
  refine hm.1.eq_of_mem_iff hm'.1 fun p => ?_
  rw [mem_iff_read hm, mem_iff_read hm', h]

/-- A second store of the same word changes nothing (20_memory.md R40). -/
theorem writeWord_writeWord_self {m : Memory} (hm : wf m) (a : Nat) (v : Word) :
    writeWord (writeWord m a v) a v = writeWord m a v := by
  have hw := wf_writeWord hm a v
  refine ext_read (wf_writeWord hw a v) hw fun b => ?_
  rw [read_writeWord hw, read_writeWord hm]
  split_ifs <;> rfl

end Memory

/-! ### The step of a store -/

/-- A running CPU executes what the fetched word decodes to, with `pc` already advanced (40_execution_loop.md R94). -/
theorem step_eq_execDecoded {s : State} {w : Word} (hrun : s.halted = false) (hf : s.fetch = some w) :
    step s = execDecoded (decodeWord w) s.advancePc := by
  rw [step_of_fetch_some hrun hf, execDecoded_eq]

/-- A `sw` fetched by a running CPU stores its word when the address is in bounds (43_load_store.md R131). -/
theorem step_sw {s : State} {w : Word} {rs1 rs2 : RegIdx} {imm : BitVec 12} (hrun : s.halted = false)
    (hf : s.fetch = some w) (hd : decodeWord w = .instr (.sw rs1 rs2 imm))
    (ha : s.inBounds (s.effectiveAddress rs1 imm)) :
    step s = .next (s.advancePc.storeWord (s.effectiveAddress rs1 imm) (s.reg rs2)) := by
  rw [step_of_fetch_some hrun hf, hd]
  exact congrArg Host.Outcome.next (if_pos ha)

/-- The fetch reads the memory that the store writes: a word stored at `pc` is the word fetched (20_memory.md R46). -/
theorem fetch_storeWord_pc {s : State} (hm : s.mem.wf) (ha : s.inBounds s.pc) (v : Word) :
    (s.storeWord s.pc v).fetch = some v :=
  State.fetch_eq_some.2 ⟨ha, Memory.readWord_writeWord hm _ v⟩

end Sys2Proof.Machine
end

section
/-! PROOFS. The statements about memory (20_memory.md). -/

namespace Sys2Proof.Machine

/-- Settles O39, from the composition of a word of its bytes and what a written word makes each byte read as. -/
theorem wordAccessIsFourLittleEndianBytes : Obligations.WordAccessIsFourLittleEndianBytes := by
  unfold Obligations.WordAccessIsFourLittleEndianBytes
  refine ⟨fun m a => wordOfBytes_eq_or _ _ _ _, fun m a v hm => ⟨?_, ?_, ?_, ?_, fun b hb =>
    Memory.read_writeWord_of_ne hm v hb⟩⟩
  all_goals simp [Memory.read_writeWord hm, byteOfWord]

/-- Settles O40: the entries of a canonical memory are told from its reads. -/
theorem equalReadsAreEqualMemories : Obligations.EqualReadsAreEqualMemories := by
  unfold Obligations.EqualReadsAreEqualMemories
  exact ⟨fun _ _ => Memory.ext_read, fun _ a v hm => Memory.writeWord_writeWord_self hm a v⟩

/-- Settles O41: the store leaves `pc` at the stored word, and the next fetch reads memory again. -/
theorem storeOverTheNextInstructionIsExecuted : Obligations.StoreOverTheNextInstructionIsExecuted := by
  unfold Obligations.StoreOverTheNextInstructionIsExecuted
  intro s w rs1 rs2 imm hm hrun hf hd haddr hin
  have hstep := step_sw hrun hf hd (haddr ▸ hin)
  have hfetch : (s.advancePc.storeWord (s.pc + 4) (s.reg rs2)).fetch = some (s.reg rs2) :=
    fetch_storeWord_pc (s := s.advancePc) hm hin (s.reg rs2)
  have hpc : s.pc + 8 = s.pc + 4 + 4 := by rw [BitVec.add_assoc]; rfl
  rw [haddr] at hstep
  refine ⟨_, hstep, hfetch, ?_⟩
  rw [hpc]
  exact step_eq_execDecoded hrun hfetch

end Sys2Proof.Machine
end

section
/-! SUPPORT. What the statements about encodings share: the instruction of a mnemonic in a word, the rows of the opcode
table as decode classes, a word put together again from its fields, the immediates as integers, the step of a word by its
class, and the instruction a packed word encodes. -/

namespace Sys2Proof

/-! ### The instruction of a mnemonic in a word -/

/-- The instruction of a mnemonic whose operands are read from a word (30_encoding.md R61, R64 to R68). -/
def Mnemonic.instrOf (m : Mnemonic) (w : Word) : Instr :=
  match m with
  | .add => .add (rdField w) (rs1Field w) (rs2Field w)
  | .sub => .sub (rdField w) (rs1Field w) (rs2Field w)
  | .xor => .xor (rdField w) (rs1Field w) (rs2Field w)
  | .addi => .addi (rdField w) (rs1Field w) (immI w)
  | .lw => .lw (rdField w) (rs1Field w) (immI w)
  | .sw => .sw (rs1Field w) (rs2Field w) (immS w)
  | .beq => .beq (rs1Field w) (rs2Field w) (immB w)
  | .lui => .lui (rdField w) (immU w)
  | .jal => .jal (rdField w) (immJ w)
  | .ecall => .ecall

@[simp] theorem mnemonic_instrOf (m : Mnemonic) (w : Word) : (m.instrOf w).mnemonic = m := by
  cases m <;> rfl

/-- A word of a mnemonic's class decodes to the mnemonic with the operands in the word (30_encoding.md R76). -/
theorem decodeWord_of_classify {m : Mnemonic} {w : Word} (h : classify w = m.decodeClass) :
    decodeWord w = .instr (m.instrOf w) := by
  unfold decodeWord
  rw [h]
  cases m <;> rfl

/-- A word is in the class of one mnemonic at most: the mnemonic of what it decodes to. -/
theorem eq_of_classify {m m' : Mnemonic} {w : Word} (h : classify w = m.decodeClass)
    (h' : classify w = m'.decodeClass) : m = m' := by
  have hinstr : m.instrOf w = m'.instrOf w :=
    Decoded.instr.inj ((decodeWord_of_classify h).symm.trans (decodeWord_of_classify h'))
  rw [← mnemonic_instrOf m w, hinstr, mnemonic_instrOf]

/-- The operands of a well-formed instruction are read back from its canonical word. -/
theorem instrOf_encode {i : Instr} (h : i.wf = true) : i.mnemonic.instrOf (encode i) = i := by
  cases i with
  | add | sub | xor | addi | lw | sw | lui => simp [encode, Instr.mnemonic, Mnemonic.instrOf]
  | beq _ _ offset =>
    have heven : offset.getLsbD 0 = false := by simpa [Instr.wf, branchOffsetOk] using h
    simp [encode, Instr.mnemonic, Mnemonic.instrOf, immB_formatB _ _ _ _ _ heven]
  | jal _ offset =>
    have heven : offset.getLsbD 0 = false := by simpa [Instr.wf, jumpOffsetOk] using h
    simp [encode, Instr.mnemonic, Mnemonic.instrOf, immJ_formatJ _ _ _ heven]
  | ecall => rfl

/-! ### The rows of the opcode table -/

/-- The decode mask and match of a row select the class of its mnemonic. -/
theorem executes_iff_classify {m : Mnemonic} {w : Word} : m.executes w ↔ classify w = m.decodeClass := by
  cases m with
  | add => exact (and_opcodeFunctMask (p := 0x00000033#32)).trans classify_eq_add.symm
  | sub => exact (and_opcodeFunctMask (p := 0x40000033#32)).trans classify_eq_sub.symm
  | xor => exact (and_opcodeFunct3Mask (p := 0x00004033#32)).trans classify_eq_xor.symm
  | addi => exact (and_opcodeMask (p := 0x00000013#32)).trans classify_eq_addi.symm
  | lw => exact (and_opcodeMask (p := 0x00000003#32)).trans classify_eq_lw.symm
  | sw => exact (and_opcodeMask (p := 0x00000023#32)).trans classify_eq_sw.symm
  | beq => exact (and_opcodeFunct3Mask (p := 0x00000063#32)).trans classify_eq_beq.symm
  | lui => exact (and_opcodeMask (p := 0x00000037#32)).trans classify_eq_lui.symm
  | jal => exact (and_opcodeMask (p := 0x0000006F#32)).trans classify_eq_jal.symm
  | ecall => exact (and_opcodeMask (p := 0x00000073#32)).trans classify_eq_ecall.symm

/-- A row's decode mask and match are its mask and match with some bits dropped, so canonical encodings are executed. -/
theorem executes_of_canonical {m : Mnemonic} {w : Word} (h : m.canonical w) : m.executes w := by
  have hmask : m.row.mask &&& m.row.decodeMask = m.row.decodeMask := by cases m <;> rfl
  have hmatch : m.row.pattern &&& m.row.decodeMask = m.row.decodePattern := by cases m <;> rfl
  rw [Mnemonic.executes, ← hmask, ← BitVec.and_assoc, h, hmatch]

theorem classify_of_canonical {m : Mnemonic} {w : Word} (h : m.canonical w) : classify w = m.decodeClass :=
  executes_iff_classify.1 (executes_of_canonical h)

/-- The encoder stays in the row of its instruction (30_encoding.md R70). -/
theorem canonical_encode (i : Instr) : i.mnemonic.canonical (encode i) := by
  cases i with
  | add =>
    exact (and_opcodeFunctMask (p := 0x00000033#32)).2
      ⟨opcode_formatR .., funct3_formatR .., funct7_formatR ..⟩
  | sub =>
    exact (and_opcodeFunctMask (p := 0x40000033#32)).2
      ⟨opcode_formatR .., funct3_formatR .., funct7_formatR ..⟩
  | xor =>
    exact (and_opcodeFunctMask (p := 0x00004033#32)).2
      ⟨opcode_formatR .., funct3_formatR .., funct7_formatR ..⟩
  | addi => exact (and_opcodeFunct3Mask (p := 0x00000013#32)).2 ⟨opcode_formatI .., funct3_formatI ..⟩
  | lw => exact (and_opcodeFunct3Mask (p := 0x00002003#32)).2 ⟨opcode_formatI .., funct3_formatI ..⟩
  | sw => exact (and_opcodeFunct3Mask (p := 0x00002023#32)).2 ⟨opcode_formatS .., funct3_formatS ..⟩
  | beq => exact (and_opcodeFunct3Mask (p := 0x00000063#32)).2 ⟨opcode_formatB .., funct3_formatB ..⟩
  | lui => exact (and_opcodeMask (p := 0x00000037#32)).2 (opcode_formatU ..)
  | jal => exact (and_opcodeMask (p := 0x0000006F#32)).2 (opcode_formatJ ..)
  | ecall => rfl

theorem decodeWord_encode {i : Instr} (h : i.wf = true) : decodeWord (encode i) = .instr i := by
  rw [decodeWord_of_classify (classify_of_canonical (canonical_encode i)), instrOf_encode h]

/-! ### A word from its fields -/

section Rebuild

variable (w : Word)

theorem formatR_fields : formatR (funct7 w) (rs2Field w) (rs1Field w) (funct3 w) (rdField w) (opcode w) = w := by
  refine BitVec.eq_of_getLsbD_eq fun i hi => ?_
  rw [getLsbD_formatR]
  split_ifs <;> simp (disch := omega) only [getLsbD_opcode, getLsbD_rdField, getLsbD_funct3, getLsbD_rs1Field,
    getLsbD_rs2Field, getLsbD_funct7, Nat.add_sub_of_le]

theorem formatI_fields : formatI (immI w) (rs1Field w) (funct3 w) (rdField w) (opcode w) = w := by
  refine BitVec.eq_of_getLsbD_eq fun i hi => ?_
  rw [getLsbD_formatI]
  split_ifs <;> simp (disch := omega) only [getLsbD_opcode, getLsbD_rdField, getLsbD_funct3, getLsbD_rs1Field,
    getLsbD_immI, Nat.add_sub_of_le]

theorem formatS_fields : formatS (immS w) (rs2Field w) (rs1Field w) (funct3 w) (opcode w) = w := by
  refine BitVec.eq_of_getLsbD_eq fun i hi => ?_
  rw [getLsbD_formatS _ _ _ _ _ _ hi]
  split_ifs <;> simp (disch := omega) only [getLsbD_opcode, getLsbD_immS, getLsbD_funct3, getLsbD_rs1Field,
    getLsbD_rs2Field, Nat.add_sub_of_le, if_pos, if_neg]

theorem formatB_fields : formatB (immB w) (rs2Field w) (rs1Field w) (funct3 w) (opcode w) = w := by
  refine BitVec.eq_of_getLsbD_eq fun i hi => ?_
  rw [getLsbD_formatB _ _ _ _ _ _ hi]
  split_ifs <;> simp (disch := omega) only [getLsbD_opcode, getLsbD_immB, getLsbD_funct3, getLsbD_rs1Field,
    getLsbD_rs2Field, Nat.add_sub_of_le, if_pos, if_neg]
  · rw [show i = 7 by omega]
  · rw [show i = 31 by omega]

theorem formatU_fields : formatU (immU w) (rdField w) (opcode w) = w := by
  refine BitVec.eq_of_getLsbD_eq fun i hi => ?_
  rw [getLsbD_formatU]
  split_ifs <;> simp (disch := omega) only [getLsbD_opcode, getLsbD_rdField, getLsbD_immU, Nat.add_sub_of_le]

theorem formatJ_fields : formatJ (immJ w) (rdField w) (opcode w) = w := by
  refine BitVec.eq_of_getLsbD_eq fun i hi => ?_
  rw [getLsbD_formatJ _ _ _ _ hi]
  split_ifs <;> simp (disch := omega) only [getLsbD_opcode, getLsbD_rdField, getLsbD_immJ, Nat.add_sub_of_le, if_pos,
    if_neg]
  · rw [show i = 20 by omega]
  · rw [show i = 31 by omega]

end Rebuild

/-- On a canonical word the fields that carry no operand hold what the encoder puts there, so its operands give the word
back. -/
theorem encode_instrOf {m : Mnemonic} {w : Word} (h : m.canonical w) : encode (m.instrOf w) = w := by
  cases m with
  | add =>
    obtain ⟨ho, h3, h7⟩ := (and_opcodeFunctMask (p := 0x00000033#32)).1 h
    exact Eq.trans (by rw [ho, h3, h7]; rfl) (formatR_fields w)
  | sub =>
    obtain ⟨ho, h3, h7⟩ := (and_opcodeFunctMask (p := 0x40000033#32)).1 h
    exact Eq.trans (by rw [ho, h3, h7]; rfl) (formatR_fields w)
  | xor =>
    obtain ⟨ho, h3, h7⟩ := (and_opcodeFunctMask (p := 0x00004033#32)).1 h
    exact Eq.trans (by rw [ho, h3, h7]; rfl) (formatR_fields w)
  | addi =>
    obtain ⟨ho, h3⟩ := (and_opcodeFunct3Mask (p := 0x00000013#32)).1 h
    exact Eq.trans (by rw [ho, h3]; rfl) (formatI_fields w)
  | lw =>
    obtain ⟨ho, h3⟩ := (and_opcodeFunct3Mask (p := 0x00002003#32)).1 h
    exact Eq.trans (by rw [ho, h3]; rfl) (formatI_fields w)
  | sw =>
    obtain ⟨ho, h3⟩ := (and_opcodeFunct3Mask (p := 0x00002023#32)).1 h
    exact Eq.trans (by rw [ho, h3]; rfl) (formatS_fields w)
  | beq =>
    obtain ⟨ho, h3⟩ := (and_opcodeFunct3Mask (p := 0x00000063#32)).1 h
    exact Eq.trans (by rw [ho, h3]; rfl) (formatB_fields w)
  | lui =>
    have ho := (and_opcodeMask (p := 0x00000037#32)).1 h
    exact Eq.trans (by rw [ho]; rfl) (formatU_fields w)
  | jal =>
    have ho := (and_opcodeMask (p := 0x0000006F#32)).1 h
    exact Eq.trans (by rw [ho]; rfl) (formatJ_fields w)
  | ecall => exact h.symm.trans (BitVec.and_allOnes (x := w))

/-! ### The classes that are no instruction -/

theorem classify_eq_rUnrecognised {w : Word} : classify w = .rUnrecognised ↔ opcode w = 0x33#7 ∧
    ¬ (funct3 w = 0x0#3 ∧ funct7 w = 0x00#7) ∧ ¬ (funct3 w = 0x0#3 ∧ funct7 w = 0x20#7) ∧ funct3 w ≠ 0x4#3 := by
  unfold classify; split_ifs <;> simp_all

theorem classify_eq_bUnimplemented {w : Word} :
    classify w = .bUnimplemented ↔ opcode w = 0x63#7 ∧ funct3 w ≠ 0x0#3 := by
  unfold classify; split_ifs <;> simp_all

/-- The eight opcodes the CPU implements (30_encoding.md R76, R80). -/
abbrev implementedOpcodes : List (BitVec 7) := [0x33#7, 0x13#7, 0x03#7, 0x23#7, 0x63#7, 0x37#7, 0x6F#7, 0x73#7]

theorem classify_eq_unimplemented {w : Word} : classify w = .unimplemented ↔ opcode w ∉ implementedOpcodes := by
  unfold classify; split_ifs <;> simp_all

/-- The R-type words that are no row's are the unrecognised ones (30_encoding.md R78). -/
theorem rUnrecognised_iff_not_executes {w : Word} :
    classify w = .rUnrecognised ↔ opcode w = 0x33#7 ∧ ∀ m : Mnemonic, ¬ m.executes w := by
  constructor
  · intro h
    refine ⟨(classify_eq_rUnrecognised.1 h).1, fun m hm => ?_⟩
    have hclass := h.symm.trans (executes_iff_classify.1 hm)
    cases m <;> cases hclass
  · rintro ⟨ho, hnone⟩
    have hclass (m : Mnemonic) : classify w ≠ m.decodeClass := fun h => hnone m (executes_iff_classify.2 h)
    exact classify_eq_rUnrecognised.2 ⟨ho, fun h => hclass .add (classify_eq_add.2 ⟨ho, h⟩),
      fun h => hclass .sub (classify_eq_sub.2 ⟨ho, h⟩), fun h => hclass .xor (classify_eq_xor.2 ⟨ho, h⟩)⟩

/-- No R-type row has a `funct3` other than 0 and 4 (30_encoding.md R78, R81). -/
theorem classify_of_otherFunct3 {w : Word} (ho : opcode w = 0x33#7)
    (h3 : funct3 w ∈ [1#3, 2#3, 3#3, 5#3, 6#3, 7#3]) : classify w = .rUnrecognised := by
  have hother : ∀ f ∈ [1#3, 2#3, 3#3, 5#3, 6#3, 7#3], f ≠ 0x0#3 ∧ f ≠ 0x4#3 := by decide
  obtain ⟨hzero, hxor⟩ := hother _ h3
  exact classify_eq_rUnrecognised.2 ⟨ho, fun h => hzero h.1, fun h => hzero h.1, hxor⟩

/-- A word whose two low bits are not both 1 has none of the eight opcodes (30_encoding.md R81). -/
theorem classify_of_lowBits {w : Word} (h : ¬ (w.getLsbD 0 = true ∧ w.getLsbD 1 = true)) :
    classify w = .unimplemented := by
  have hlow : ∀ o ∈ implementedOpcodes, o.getLsbD 0 = true ∧ o.getLsbD 1 = true := by decide
  rw [← getLsbD_opcode w 0 (by decide), ← getLsbD_opcode w 1 (by decide)] at h
  exact classify_eq_unimplemented.2 (mt (hlow _) h)

end Sys2Proof

namespace Sys2Proof.Machine

/-! ### The integers of the immediates (30_encoding.md R64 to R68) -/

section Immediates

variable (w : Word)

theorem toInt_immI : (immI w).toInt = immIValue w := by
  rw [← sext_toNat, immIValue, fieldValue_eq]
  rfl

theorem toInt_immS : (immS w).toInt = immSValue w := by
  rw [← sext_toNat, immSValue, immS, toNat_append, fieldValue_eq, fieldValue_eq]

theorem toInt_immB : (immB w).toInt = immBValue w := by
  rw [← sext_toNat, immBValue]
  simp only [immB, toNat_append, fieldValue_eq, BitVec.toNat_zero]
  congr 1
  ring

theorem toInt_immJ : (immJ w).toInt = immJValue w := by
  rw [← sext_toNat, immJValue]
  simp only [immJ, toNat_append, fieldValue_eq, BitVec.toNat_zero]
  congr 1
  ring

end Immediates

/-- The bits below the field of the U-immediate are 0 (30_encoding.md R67). -/
theorem immediateU_immU_eq_and (w : Word) : immediateU (immU w) = w &&& 0xFFFFF000#32 := by
  have hmask : ∀ i < 32, (0xFFFFF000#32).getLsbD i = decide (12 ≤ i) := by decide
  refine BitVec.eq_of_getLsbD_eq fun i hi => ?_
  rw [BitVec.getLsbD_and, hmask i hi, immediateU, BitVec.getLsbD_append]
  split_ifs
  · simp [*]
  · rw [getLsbD_immU w _ (by omega), Nat.add_sub_of_le (by omega), decide_eq_true (by omega), Bool.and_true]

theorem toNat_immediateU_immU (w : Word) : (immediateU (immU w)).toNat = immUValue w := by
  rw [immediateU, toNat_append, immU, immUValue, fieldValue_eq, BitVec.toNat_zero, Nat.add_zero]

/-- What an even pattern of two bits or more denotes is even. -/
theorem sext_mod_two {n v : Nat} (h : v % 2 = 0) : sext (n + 2) v % 2 = 0 := by
  rw [sext]
  split_ifs
  · omega
  · rw [pow_succ]
    omega

theorem immBValue_mod_two (w : Word) : immBValue w % 2 = 0 := sext_mod_two (by omega)

theorem immJValue_mod_two (w : Word) : immJValue w % 2 = 0 := sext_mod_two (by omega)

theorem toInt_range {n : Nat} (v : BitVec (n + 1)) : -2 ^ n ≤ v.toInt ∧ v.toInt ≤ 2 ^ n - 1 :=
  ⟨v.le_toInt, Int.le_sub_one_of_lt v.toInt_lt⟩

/-! ### The step of a fetched word, by its class -/

theorem advancePc_eq (s : State) : s.advancePc = { s with pc := u32 ((s.pc.toNat : Int) + 4) } := by
  rw [State.advancePc, State.setPc, ← u32_toNat_add]
  rfl

section Step

variable {s : State} {w : Word} (hrun : s.halted = false) (hf : s.fetch = some w)
include hrun hf

/-- A word of a mnemonic's class runs as that instruction, whatever its other fields hold (30_encoding.md R76). -/
theorem step_of_classify {m : Mnemonic} (h : classify w = m.decodeClass) :
    step s = exec (m.instrOf w) { s with pc := u32 ((s.pc.toNat : Int) + 4) } := by
  rw [step_eq_execDecoded hrun hf, decodeWord_of_classify h, advancePc_eq]
  rfl

/-- An unrecognised R-type word only advances `pc` (30_encoding.md R78). -/
theorem step_of_rUnrecognised (h : classify w = .rUnrecognised) :
    step s = .next { s with pc := u32 ((s.pc.toNat : Int) + 4) } := by
  rw [step_of_fetch_some hrun hf, decodeWord, h, advancePc_eq]
  rfl

/-- The words of the two halting classes halt the CPU, `pc` advanced (30_encoding.md R79, R80). -/
theorem step_of_unimplemented (h : classify w = .bUnimplemented ∨ classify w = .unimplemented) :
    step s = .next { s with
      pc := u32 ((s.pc.toNat : Int) + 4), halted := true, haltCause := .unimplementedInstruction } := by
  rw [step_of_fetch_some hrun hf, decodeWord, advancePc_eq]
  obtain h | h := h <;> rw [h] <;> rfl

end Step

/-! ### Packed words -/

/-- An operation that packs gives the canonical word of a well-formed instruction: an offset that is stored is even, and
the offset of a `jal` is made so (46_encoder.md R163 to R171). -/
theorem encode_of_pack {op : Operation} {address : Nat} {w : Word} (h : pack op address = .ok w) :
    (op.toInstr address).wf = true ∧ encode (op.toInstr address) = w := by
  cases op with
  | add | sub | xor => exact ⟨rfl, (packR_eq ..).symm.trans (Except.ok.inj h)⟩
  | addi => exact ⟨rfl, (packAddi_eq ..).symm.trans (Except.ok.inj h)⟩
  | lw => exact ⟨rfl, (packLw_eq ..).symm.trans (Except.ok.inj h)⟩
  | sw => exact ⟨rfl, (packSw_eq ..).symm.trans (Except.ok.inj h)⟩
  | lui => exact ⟨rfl, (packLui_eq ..).symm.trans (Except.ok.inj h)⟩
  | ecall => exact ⟨rfl, Except.ok.inj h⟩
  | beq rs1 rs2 label =>
    rw [pack] at h
    split at h
    case isTrue hok =>
      exact ⟨by rw [Operation.toInstr, Instr.wf, branchOffsetOk, getLsbD_zero_ofInt hok.2.2]; rfl,
        (packBeq_eq ..).symm.trans (Except.ok.inj h)⟩
    case isFalse => cases h
  | jal rd imm =>
    have heven : (imm - imm % 2) % 2 = 0 := by omega
    refine ⟨by rw [Operation.toInstr, Instr.wf, jumpOffsetOk, getLsbD_zero_ofInt heven]; rfl, ?_⟩
    calc encode (.jal rd (BitVec.ofInt 21 (imm - imm % 2)))
        = packJal rd (imm - imm % 2) := (packJal_eq ..).symm
      _ = packJal rd imm := packJal_even rd imm
      _ = w := Except.ok.inj h

end Sys2Proof.Machine
end

section
/-! PROOFS. The statements about encoding, decoding and the words the CPU does not implement (30_encoding.md). -/

namespace Sys2Proof.Machine

/-- Settles O2: the class of an encoding is its mnemonic's, and every operand is read back. -/
theorem decodeOfEncodeIsIdentity : Obligations.DecodeOfEncodeIsIdentity := by
  unfold Obligations.DecodeOfEncodeIsIdentity
  exact fun _ => decodeWord_encode

/-- Settles O3, with the instruction read from the word. -/
theorem encodeOfDecodeIsIdentityOnCanonicalWords : Obligations.EncodeOfDecodeIsIdentityOnCanonicalWords := by
  unfold Obligations.EncodeOfDecodeIsIdentityOnCanonicalWords
  intro m w h
  have hd := decodeWord_of_classify (classify_of_canonical h)
  exact ⟨m.instrOf w, hd, wf_of_decodeWord hd, mnemonic_instrOf m w, encode_instrOf h⟩

/-- Settles O4: canonical encodings are in their mnemonic's decode class, and the classes are disjoint. -/
theorem canonicalEncodingsDoNotOverlap : Obligations.CanonicalEncodingsDoNotOverlap := by
  unfold Obligations.CanonicalEncodingsDoNotOverlap
  have hunique : ∀ (m m' : Mnemonic) (w : Word), m.canonical w → m'.canonical w → m = m' := fun _ _ _ h h' =>
    eq_of_classify (classify_of_canonical h) (classify_of_canonical h')
  exact ⟨fun i m => ⟨fun h => hunique _ _ _ h (canonical_encode i), fun h => h ▸ canonical_encode i⟩, hunique⟩

/-- Settles O49: a packed word is the canonical word of the operation's instruction, which decodes to it. -/
theorem packedWordsDecodeToTheirOperands : Obligations.PackedWordsDecodeToTheirOperands := by
  unfold Obligations.PackedWordsDecodeToTheirOperands
  refine ⟨fun _ _ => classify_of_canonical, fun op address w h => ?_⟩
  obtain ⟨hwf, rfl⟩ := encode_of_pack h
  exact decodeWord_encode hwf

/-- Settles O5. -/
theorem decodeClassesMatchTheTable : Obligations.DecodeClassesMatchTheTable := by
  unfold Obligations.DecodeClassesMatchTheTable
  exact ⟨fun _ _ => executes_iff_classify.symm, fun _ => rUnrecognised_iff_not_executes,
    fun _ => classify_eq_bUnimplemented, fun _ => classify_eq_unimplemented⟩

/-- Settles O6: the ranges are those of two's complement; an even value below 2^n is at most 2^n - 2. -/
theorem immediatesAreTheFieldIntegers : Obligations.ImmediatesAreTheFieldIntegers := by
  unfold Obligations.ImmediatesAreTheFieldIntegers
  intro w
  have hI := toInt_immI w ▸ toInt_range (immI w)
  have hS := toInt_immS w ▸ toInt_range (immS w)
  have hB := toInt_immB w ▸ toInt_range (immB w)
  have hJ := toInt_immJ w ▸ toInt_range (immJ w)
  have hBeven := immBValue_mod_two w
  have hJeven := immJValue_mod_two w
  exact ⟨⟨toInt_immI w, by omega, by omega⟩, ⟨toInt_immS w, by omega, by omega⟩,
    ⟨toInt_immB w, hBeven, by omega, by omega⟩, ⟨immediateU_immU_eq_and w, toNat_immediateU_immU w⟩,
    ⟨toInt_immJ w, hJeven, by omega, by omega⟩⟩

/-- Settles O12: each row of the table fixes the class of its words. -/
theorem foreignWordsRunAsTheTableSays : Obligations.ForeignWordsRunAsTheTableSays := by
  unfold Obligations.ForeignWordsRunAsTheTableSays
  intro s w hrun hf u stop
  refine ⟨fun ho => ?addi, fun ho => ?lw, fun ho => ?sw, fun ho h3 => ?xor, fun ho h3 h7 => ?mul, fun ho h3 => ?otherR,
    fun ho h3 => ?otherBranch, fun ho => ?ecall, fun ho => ?otherOpcode, fun hlow => ?lowBits⟩
  case addi => exact step_of_classify hrun hf (m := .addi) (classify_eq_addi.2 ho)
  case lw => exact step_of_classify hrun hf (m := .lw) (classify_eq_lw.2 ho)
  case sw => exact step_of_classify hrun hf (m := .sw) (classify_eq_sw.2 ho)
  case xor => exact step_of_classify hrun hf (m := .xor) (classify_eq_xor.2 ⟨ho, h3⟩)
  case ecall => exact step_of_classify hrun hf (m := .ecall) (classify_eq_ecall.2 ho)
  case mul => exact step_of_rUnrecognised hrun hf (classify_eq_rUnrecognised.2 ⟨ho, by simp [h3, h7]⟩)
  case otherR => exact step_of_rUnrecognised hrun hf (classify_of_otherFunct3 ho h3)
  case otherBranch => exact step_of_unimplemented hrun hf (.inl (classify_eq_bUnimplemented.2 ⟨ho, h3⟩))
  case otherOpcode =>
    have hforeign : ∀ o ∈ [0x17#7, 0x67#7, 0x0F#7], o ∉ implementedOpcodes := by decide
    exact step_of_unimplemented hrun hf (.inr (classify_eq_unimplemented.2 (hforeign _ ho)))
  case lowBits => exact step_of_unimplemented hrun hf (.inr (classify_of_lowBits hlow))

/-- Settles O13. -/
theorem unrecognisedRTypeIsNoOperation : Obligations.UnrecognisedRTypeIsNoOperation := by
  unfold Obligations.UnrecognisedRTypeIsNoOperation
  rintro s w hrun hf ho (⟨h3, h7add, h7sub⟩ | h3)
  · exact step_of_rUnrecognised hrun hf (classify_eq_rUnrecognised.2 ⟨ho, by simp [h3, h7add, h7sub]⟩)
  · exact step_of_rUnrecognised hrun hf (classify_of_otherFunct3 ho h3)

/-- Settles O14. -/
theorem unimplementedWordsHalt : Obligations.UnimplementedWordsHalt := by
  unfold Obligations.UnimplementedWordsHalt
  exact fun s w hrun hf h => step_of_unimplemented hrun hf
    (h.imp classify_eq_bUnimplemented.2 classify_eq_unimplemented.2)

end Sys2Proof.Machine
end

section
/-! SUPPORT. What the statements about the execution loop share: the reference step's fields, memory accesses and sums
as the model's, the reference step of a fetched word, and the run loop as the step iterated. -/

namespace Sys2Proof.Machine

/-! ### The fields of a word, as the reference step reads them -/

/-- A field read as a number and written back at its width is the pattern extracted. -/
theorem ofNat_fieldValue (v : Word) (hi lo : Nat) :
    BitVec.ofNat (hi - lo + 1) (fieldValue v hi lo) = v.extractLsb' lo (hi - lo + 1) := by
  rw [fieldValue_eq, BitVec.ofNat_toNat, BitVec.setWidth_eq]

/-- A test of a field against a number that fits is the test of the pattern extracted. -/
theorem fieldValue_eq_iff {v : Word} {hi lo k : Nat} (hk : k < 2 ^ (hi - lo + 1)) :
    fieldValue v hi lo = k ↔ v.extractLsb' lo (hi - lo + 1) = BitVec.ofNat (hi - lo + 1) k := by
  rw [fieldValue_eq, BitVec.toNat_eq, BitVec.toNat_ofNat, Nat.mod_eq_of_lt hk]

section Fields

variable (w : Word)

theorem fieldValue_opcode_eq_iff {k : Nat} (hk : k < 2 ^ 7) : fieldValue w 6 0 = k ↔ opcode w = BitVec.ofNat 7 k :=
  fieldValue_eq_iff hk

theorem fieldValue_funct3_eq_iff {k : Nat} (hk : k < 2 ^ 3) : fieldValue w 14 12 = k ↔ funct3 w = BitVec.ofNat 3 k :=
  fieldValue_eq_iff hk

theorem fieldValue_funct7_eq_iff {k : Nat} (hk : k < 2 ^ 7) : fieldValue w 31 25 = k ↔ funct7 w = BitVec.ofNat 7 k :=
  fieldValue_eq_iff hk

theorem ofNat_fieldValue_rd : BitVec.ofNat 5 (fieldValue w 11 7) = rdField w := ofNat_fieldValue w 11 7

theorem ofNat_fieldValue_rs1 : BitVec.ofNat 5 (fieldValue w 19 15) = rs1Field w := ofNat_fieldValue w 19 15

theorem ofNat_fieldValue_rs2 : BitVec.ofNat 5 (fieldValue w 24 20) = rs2Field w := ofNat_fieldValue w 24 20

end Fields

/-! ### The memory accesses of the reference step -/

theorem ofNat_memReadValue (m : Memory) (a : Nat) : BitVec.ofNat 32 (memReadValue m a) = m.readWord a := by
  rw [← readWord_toNat, BitVec.ofNat_toNat, BitVec.setWidth_eq]

theorem memWriteValue_eq (m : Memory) (a : Nat) (v : Word) : memWriteValue m a v = m.writeWord a v := by
  have hbyte (k : Nat) : BitVec.ofNat 8 (fieldValue v (8 * k + 7) (8 * k)) = byteOfWord v k := by
    have h := ofNat_fieldValue v (8 * k + 7) (8 * k)
    rwa [Nat.add_sub_cancel_left] at h
  simp only [memWriteValue, Memory.writeWord, ← hbyte]

/-! ### Sums over the integers, reduced modulo 2^32 (40_execution_loop.md R101) -/

theorem u32_sub (x y : Int) : u32 (x - y) = u32 x - u32 y := by
  rw [Int.sub_eq_add_neg, u32, BitVec.ofInt_add, BitVec.ofInt_neg, BitVec.sub_eq_add_neg]

theorem u32_toInt_add (a b : Word) : u32 (a.toInt + b.toInt) = a + b := by
  rw [u32, BitVec.ofInt_add, BitVec.ofInt_toInt, BitVec.ofInt_toInt]

theorem u32_toInt_sub (a b : Word) : u32 (a.toInt - b.toInt) = a - b := by
  rw [u32_sub, u32, u32, BitVec.ofInt_toInt, BitVec.ofInt_toInt]

/-- The target of a transfer, summed over the integers and reduced once (44_control_transfer.md R140). -/
theorem u32_toNat_add_toInt_sub_four {n : Nat} (a : Word) (v : BitVec n) :
    u32 ((a.toNat : Int) + v.toInt - 4) = a + (v.signExtend 32 - 4) := by
  rw [u32_sub, u32_toNat_add_toInt]
  exact add_sub_assoc _ _ _

theorem u32_immUValue (w : Word) : u32 (immUValue w) = immU w ++ 0#12 := by
  rw [← toNat_immediateU_immU, u32, BitVec.ofInt_natCast, BitVec.ofNat_toNat, BitVec.setWidth_eq, immediateU]

/-! ### The step -/

theorem fetch_of_inBounds {s : State} (h : s.inBounds s.pc) : s.fetch = some (s.mem.readWord s.pc.toNat) :=
  State.fetch_eq_some.2 ⟨h, rfl⟩

/-- On a fetched word the reference step makes the tests of the decoder and then the update of the instruction. -/
theorem referenceStep_of_fetch_some {s : State} {w : Word} (hf : s.fetch = some w) :
    referenceStep s = nextDecoded (decodeWord w) s.advancePc := by
  obtain ⟨hin, hw⟩ := State.fetch_eq_some.1 hf
  have hword : BitVec.ofNat 32 (memReadValue s.mem s.pc.toNat) = w := (ofNat_memReadValue ..).trans hw
  have hpc : s.setPc (u32 (s.pc.toNat + 4)) = s.advancePc := (advancePc_eq s).symm
  rw [referenceStep, if_neg (not_not_intro hin)]
  simp (disch := decide) only [hword, hpc, fieldValue_opcode_eq_iff, fieldValue_funct3_eq_iff,
    fieldValue_funct7_eq_iff, ofNat_fieldValue_rd, ofNat_fieldValue_rs1, ofNat_fieldValue_rs2, ← toInt_immI,
    ← toInt_immS, ← toInt_immB, ← toInt_immJ, u32_immUValue, u32_toNat_add, u32_toNat_sub, u32_toNat_add_toInt,
    u32_toNat_add_toInt_sub_four, ofNat_memReadValue, memWriteValue_eq, ite_not]
  rw [decodeWord]
  cases hc : classify w with
  | add =>
    obtain ⟨ho, h3, h7⟩ := classify_eq_add.1 hc
    rw [ho, h3, h7]
    rfl
  | sub =>
    obtain ⟨ho, h3, h7⟩ := classify_eq_sub.1 hc
    rw [ho, h3, h7]
    rfl
  | xor =>
    obtain ⟨ho, h3⟩ := classify_eq_xor.1 hc
    rw [ho, h3]
    rfl
  | rUnrecognised =>
    obtain ⟨ho, hadd, hsub, hxor⟩ := classify_eq_rUnrecognised.1 hc
    rw [if_pos ho, if_neg hadd, if_neg hsub, if_neg hxor]
    rfl
  | addi => rw [classify_eq_addi.1 hc]; rfl
  | lw => rw [classify_eq_lw.1 hc]; rfl
  | sw => rw [classify_eq_sw.1 hc]; rfl
  | beq =>
    obtain ⟨ho, h3⟩ := classify_eq_beq.1 hc
    rw [ho, h3]
    rfl
  | bUnimplemented =>
    obtain ⟨ho, h3⟩ := classify_eq_bUnimplemented.1 hc
    rw [ho, if_neg h3]
    rfl
  | lui => rw [classify_eq_lui.1 hc]; rfl
  | jal => rw [classify_eq_jal.1 hc]; rfl
  | ecall => rw [classify_eq_ecall.1 hc]; rfl
  | unimplemented =>
    have ho := classify_eq_unimplemented.1 hc
    simp only [List.mem_cons, List.not_mem_nil, or_false, not_or] at ho
    simp only [ho, if_false]
    rfl

/-! ### The run loop -/

theorem after_of_halted {s : State} (h : s.halted = true) : s.after = s := by
  rw [State.after, step_of_halted h]

/-- A run is the step iterated: the steps of the budget that a halted CPU is not asked for would change nothing. -/
theorem run_eq_iterate (n : Nat) (s : State) : run n s = State.after^[n] s := by
  induction n generalizing s with
  | zero => rfl
  | succ n ih =>
    cases hh : s.halted with
    | true => rw [run_succ_of_halted n hh, Function.iterate_fixed (after_of_halted hh)]
    | false => rw [run_succ_of_running n hh, ih, Function.iterate_succ_apply]

theorem run_of_halted {s : State} (h : s.halted = true) (n : Nat) : run n s = s := by
  rw [run_eq_iterate, Function.iterate_fixed (after_of_halted h)]

theorem run_add (m n : Nat) (s : State) : run (m + n) s = run n (run m s) := by
  rw [run_eq_iterate, run_eq_iterate, run_eq_iterate, Nat.add_comm, Function.iterate_add_apply]

/-- A larger budget leads on from a halted state to the same state. -/
theorem run_eq_of_halted {s : State} {m n : Nat} (hmn : m ≤ n) (h : (run m s).halted = true) : run n s = run m s := by
  obtain ⟨k, rfl⟩ := Nat.exists_eq_add_of_le hmn
  rw [run_add, run_of_halted h]

theorem runTrace_of_halted {s : State} (h : s.halted = true) (trace : Bool) (n : Nat) : runTrace trace n s = [] := by
  cases n with
  | zero => rfl
  | succ n => simp only [runTrace, h, Bool.true_or, if_true]

/-- What every step keeps, every run keeps. -/
theorem KeptByUpdates.run {P : State → Prop} (hP : KeptByUpdates P) {s : State} (hs : P s) (n : Nat) :
    P (run n s) := by
  rw [run_eq_iterate]
  exact Function.Iterate.rec P hs (fun u hu => hP.step hu (step_eq_after u)) n

end Sys2Proof.Machine
end

section
/-! PROOFS. The statements about the execution loop: the step, the run, the fetch and the ALU
(40_execution_loop.md). -/

namespace Sys2Proof.Machine

/-- Settles O8: the reference step makes the model's fetch test and, on a fetched word, the tests of the decoder. -/
theorem stepIsTheReferenceStep : Obligations.StepIsTheReferenceStep := by
  unfold Obligations.StepIsTheReferenceStep
  intro s hrun
  cases hf : s.fetch with
  | none => rw [step_of_fetch_none hrun hf, referenceStep, if_pos (State.fetch_eq_none.1 hf)]
  | some w => rw [step_of_fetch_some hrun hf, referenceStep_of_fetch_some hf]

/-- Settles O9: the next state is the state after the step. -/
theorem everyStateHasExactlyOneNextState : Obligations.EveryStateHasExactlyOneNextState := by
  unfold Obligations.EveryStateHasExactlyOneNextState
  exact fun s => ⟨s.after, step_eq_after s, fun t ht => Host.Outcome.next.inj (ht.symm.trans (step_eq_after s))⟩

/-- Settles O44: a run is the step iterated, and keeps the invariant, by which a running CPU has no halt cause. -/
theorem runSplitsAtAnyBudget : Obligations.RunSplitsAtAnyBudget := by
  unfold Obligations.RunSplitsAtAnyBudget
  exact ⟨run_add, fun n s _ => run_eq_iterate n s, fun n _ hs => (keptByUpdates_inv.run hs n).halt.1⟩

/-- Settles O45: the run with the larger budget stays where the other one halted. -/
theorem theEndOfARunIsUnique : Obligations.TheEndOfARunIsUnique := by
  unfold Obligations.TheEndOfARunIsUnique
  refine ⟨?_, fun n _ hs => keptByUpdates_inv.run hs n⟩
  rintro s _ _ ⟨m, rfl, hm⟩ ⟨n, rfl, hn⟩
  obtain h | h := Nat.le_total m n
  · exact (run_eq_of_halted h hm).symm
  · exact run_eq_of_halted h hn

/-- Settles O7. -/
theorem stepRunsTheDecodedInstruction : Obligations.StepRunsTheDecodedInstruction := by
  unfold Obligations.StepRunsTheDecodedInstruction
  intro s i hrun hin hd
  have hi : decodeWord (s.mem.readWord s.pc.toNat) = .instr i := congrArg Prod.fst (Option.some.inj hd)
  rw [step_eq_execDecoded hrun (fetch_of_inBounds hin), hi, advancePc_eq]
  rfl

/-- Settles O10. -/
theorem fetchBoundsAndWord : Obligations.FetchBoundsAndWord := by
  unfold Obligations.FetchBoundsAndWord
  refine ⟨fun s hrun hout => step_of_fetch_none hrun (State.fetch_eq_none.2 hout), fun s hin => ?_⟩
  rw [fetch_of_inBounds hin, ofNat_memReadValue]

/-- Settles O11. -/
theorem haltedStepChangesNothing : Obligations.HaltedStepChangesNothing := by
  unfold Obligations.HaltedStepChangesNothing
  exact fun s h => ⟨step_of_halted h, fun n => ⟨run_of_halted h n, fun trace => runTrace_of_halted h trace n⟩⟩

/-- Settles O28: both readings of an operand are the same pattern modulo 2^32, so their sums and differences are. -/
theorem aluIsModularAndSignless : Obligations.AluIsModularAndSignless := by
  unfold Obligations.AluIsModularAndSignless
  intro a b
  refine ⟨(u32_toNat_add a b).symm, (u32_toInt_add a b).symm, (u32_toNat_sub a b).symm, (u32_toInt_sub a b).symm,
    fun _ => BitVec.getLsbD_xor, rfl, ?_, BitVec.xor_self, BitVec.xor_zero, BitVec.xor_allOnes⟩
  rw [aluEq_eq_true, BitVec.toNat_inj]

end Sys2Proof.Machine
end

section
/-! PROOFS. The statements about the register-register instructions (41_integer_register.md). -/

namespace Sys2Proof.Machine

/-- Result and frame of every instruction whose only effect is a register write, from its line of `nextState`. -/
theorem exec_of_nextState_eq_setReg {i : Instr} {s : State} {rd : RegIdx} {v : Word}
    (h : nextState i s = s.setReg rd v) :
    ∃ t, exec i s = .next t ∧ t.reg rd = v ∧ SameRegsExcept [rd] s t ∧ SameMemory s t ∧ SameControl s t ∧
      t.pc = s.pc := by
  refine ⟨s.setReg rd v, ?_, State.reg_setReg_self .., sameRegsExcept_setReg s rd v, fun _ => rfl, ⟨rfl, rfl, rfl⟩, rfl⟩
  rw [exec_eq, h]

/-- Settles O15. -/
theorem addWritesTheSum : Obligations.AddWritesTheSum := by
  unfold Obligations.AddWritesTheSum
  refine ⟨fun w ho h3 h7 => ?decode, fun _ _ _ => rfl, fun rd rs1 rs2 s => ?exec⟩
  case decode => exact decodeWord_of_classify (m := .add) (classify_eq_add.2 ⟨ho, h3, h7⟩)
  case exec => exact exec_of_nextState_eq_setReg (congrArg (s.setReg rd) (u32_toNat_add ..).symm)

/-- Settles O16. -/
theorem subWritesTheDifference : Obligations.SubWritesTheDifference := by
  unfold Obligations.SubWritesTheDifference
  refine ⟨fun w ho h3 h7 => ?decode, fun _ _ _ => rfl, fun rd rs1 rs2 s => ?exec⟩
  case decode => exact decodeWord_of_classify (m := .sub) (classify_eq_sub.2 ⟨ho, h3, h7⟩)
  case exec => exact exec_of_nextState_eq_setReg (congrArg (s.setReg rd) (u32_toNat_sub ..).symm)

/-- Settles O17: the class does not look at `funct7`. -/
theorem xorWritesTheExclusiveOr : Obligations.XorWritesTheExclusiveOr := by
  unfold Obligations.XorWritesTheExclusiveOr
  refine ⟨fun w ho h3 => ?decode, fun _ _ _ => rfl, fun rd rs1 rs2 s => ?exec⟩
  case decode => exact decodeWord_of_classify (m := .xor) (classify_eq_xor.2 ⟨ho, h3⟩)
  case exec =>
    obtain ⟨t, hexec, hrd, hframe⟩ := exec_of_nextState_eq_setReg (i := .xor rd rs1 rs2) (s := s) rfl
    exact ⟨t, hexec, fun k => by rw [hrd, BitVec.getLsbD_xor], hframe⟩

end Sys2Proof.Machine
end

section
/-! PROOFS. The statements about the instructions with an immediate operand (42_integer_immediate.md). -/

namespace Sys2Proof.Machine

/-- Settles O18: the class does not look at `funct3`, and the sum over the integers is the ALU's modulo 2^32. -/
theorem addiWritesTheSum : Obligations.AddiWritesTheSum := by
  unfold Obligations.AddiWritesTheSum
  refine ⟨fun w ho => ?decode, fun _ _ _ => rfl, fun rd rs1 imm s => ?exec⟩
  case decode => exact decodeWord_of_classify (m := .addi) (classify_eq_addi.2 ho)
  case exec => exact exec_of_nextState_eq_setReg (congrArg (s.setReg rd) (u32_toNat_add_toInt ..).symm)

/-- Settles O19: the word written is the field with twelve zeros appended. -/
theorem luiWritesTheUpperImmediate : Obligations.LuiWritesTheUpperImmediate := by
  unfold Obligations.LuiWritesTheUpperImmediate
  refine ⟨fun w ho => ?decode, fun _ _ => rfl, fun rd imm s => ?exec⟩
  case decode => exact decodeWord_of_classify (m := .lui) (classify_eq_lui.2 ho)
  case exec =>
    obtain ⟨t, hexec, hrd, hframe⟩ := exec_of_nextState_eq_setReg (i := .lui rd imm) (s := s) rfl
    exact ⟨t, hexec, by rw [hrd, toNat_append, BitVec.toNat_zero, Nat.add_zero], hframe⟩

end Sys2Proof.Machine
end

section
/-! SUPPORT. What the statements about the load and the store share: a byte of a word as a number, the four bytes a
store writes, and the frame of an instruction that halts. -/

namespace Sys2Proof.Machine

/-- Byte `k` of a word as the spec's arithmetic writes it: bits `8k+7 : 8k` (20_memory.md R37). -/
theorem toNat_byteOfWord (v : Word) (k : Nat) : (byteOfWord v k).toNat = v.toNat / 2 ^ (8 * k) % 2 ^ 8 := by
  rw [byteOfWord, BitVec.extractLsb'_toNat, Nat.shiftRight_eq_div_pow]

/-- Each of the four addresses of a written word reads as its byte of the word. -/
theorem Memory.read_writeWord_add {m : Memory} (hm : m.wf) (a : Nat) (v : Word) {k : Nat} (hk : k < 4) :
    (m.writeWord a v).read (a + k) = byteOfWord v k := by
  rw [Memory.read_writeWord hm]
  obtain rfl | rfl | rfl | rfl : k = 0 ∨ k = 1 ∨ k = 2 ∨ k = 3 := by omega
  all_goals simp

/-- Cause and frame of every instruction that halts, from its line of `nextState` (60_exceptions.md R226). -/
theorem exec_of_nextState_eq_raise {i : Instr} {s : State} {cause : HaltCause} (h : nextState i s = s.raise cause) :
    ∃ t, exec i s = .next t ∧ t.halted = true ∧ t.haltCause = cause ∧ SameRegsExcept [] s t ∧ SameMemory s t ∧
      t.memSize = s.memSize ∧ t.pc = s.pc := by
  refine ⟨s.raise cause, ?_, rfl, rfl, fun _ _ => rfl, fun _ => rfl, rfl, rfl⟩
  rw [exec_eq, h]

end Sys2Proof.Machine
end

section
/-! PROOFS. The statements about the load and the store (43_load_store.md). -/

namespace Sys2Proof.Machine

/-- Settles O20: adding the displacement sign-extended is adding the integer it denotes, modulo 2^32. -/
theorem effectiveAddressWraps : Obligations.EffectiveAddressWraps := by
  unfold Obligations.EffectiveAddressWraps
  intro s base imm
  rw [effectiveAddress_eq, u32_toNat_add_toInt]

/-- Settles O21: the class does not look at `funct3`; in bounds `lw` is a register write, out of bounds a halt. -/
theorem lwLoadsOrHalts : Obligations.LwLoadsOrHalts := by
  unfold Obligations.LwLoadsOrHalts
  refine ⟨fun w ho => ?decode, fun _ _ _ => rfl, fun rd rs1 imm s => ⟨fun hin => ?load, fun hout => ?halt⟩⟩
  case decode => exact decodeWord_of_classify (m := .lw) (classify_eq_lw.2 ho)
  case load =>
    obtain ⟨t, hexec, hrd, hframe⟩ := exec_of_nextState_eq_setReg (i := .lw rd rs1 imm) (if_pos hin)
    exact ⟨t, hexec, by rw [hrd, State.loadWord, readWord_toNat], hframe⟩
  case halt => exact exec_of_nextState_eq_raise (if_neg hout)

/-- Settles O22: the class does not look at `funct3`; in bounds `sw` writes the four bytes of the word, out of bounds
it is a halt. -/
theorem swStoresOrHalts : Obligations.SwStoresOrHalts := by
  unfold Obligations.SwStoresOrHalts
  refine ⟨fun w ho => ?decode, fun _ _ _ => rfl, fun rs1 rs2 imm s hm => ⟨fun hin => ?store, fun hout => ?halt⟩⟩
  case decode => exact decodeWord_of_classify (m := .sw) (classify_eq_sw.2 ho)
  case store =>
    have hnext : nextState (.sw rs1 rs2 imm) s = s.storeWord (s.effectiveAddress rs1 imm) (s.reg rs2) := if_pos hin
    refine ⟨_, (exec_eq _ s).trans (congrArg _ hnext), fun k hk => ?_, fun b hb => ?_, fun _ _ => rfl,
      ⟨rfl, rfl, rfl⟩, rfl⟩
    · rw [State.mem_storeWord, Memory.read_writeWord_add hm _ _ hk, toNat_byteOfWord]
    · rw [State.mem_storeWord, Memory.read_writeWord_of_ne hm _ hb]
  case halt => exact exec_of_nextState_eq_raise (if_neg hout)

end Sys2Proof.Machine
end

section
/-! SUPPORT. What the statements about control transfer share: the state after a `beq` taken or not, the step of a taken
`beq` and of a `jal` counted from the instruction's own address, and the offset of a `beq` that packs. -/

namespace Sys2Proof.Machine

/-- All that `beq` can change is `pc` (44_control_transfer.md R141). -/
theorem nextState_beq (rs1 rs2 : RegIdx) (offset : BitVec 13) (s : State) :
    nextState (.beq rs1 rs2 offset) s =
      s.setPc (if s.reg rs1 = s.reg rs2 then s.target (offset.signExtend 32) else s.pc) := by
  rw [nextState]
  split <;> rfl

section Step

variable {s : State} {w : Word} (hrun : s.halted = false) (hf : s.fetch = some w)
include hrun hf

/-- A taken `beq` goes to its own address plus its offset (44_control_transfer.md R140). -/
theorem step_beq_of_eq {rs1 rs2 : RegIdx} {offset : BitVec 13} (hd : decodeWord w = .instr (.beq rs1 rs2 offset))
    (heq : s.reg rs1 = s.reg rs2) : step s = .next (s.setPc (s.pc + offset.signExtend 32)) := by
  rw [step_of_fetch_some hrun hf, hd, ← target_advancePc]
  exact congrArg Host.Outcome.next (if_pos heq)

/-- A `jal` links the address of the next instruction and goes to its own address plus its offset
(44_control_transfer.md R140, R143). -/
theorem step_jal {rd : RegIdx} {offset : BitVec 21} (hd : decodeWord w = .instr (.jal rd offset)) :
    step s = .next ((s.setReg rd (s.pc + 4)).setPc (s.pc + offset.signExtend 32)) := by
  rw [step_of_fetch_some hrun hf, hd, ← target_advancePc s (offset.signExtend 32)]
  rfl

end Step

/-- A step that transfers to its own address plus an even offset keeps the parity of `pc`, and only the fetch of the next
step checks the target (44_control_transfer.md R140, 40_execution_loop.md R91). -/
theorem transfer_of_step {n : Nat} {s u : State} {offset : BitVec (n + 1)} (heven : offset.getLsbD 0 = false)
    (hrun : u.halted = false) (hstep : step s = .next (u.setPc (s.pc + offset.signExtend 32))) :
    ∃ t, step s = .next t ∧ t.halted = false ∧ t.pc = u32 ((s.pc.toNat : Int) + offset.toInt) ∧
      t.pc.toNat % 2 = s.pc.toNat % 2 ∧
      (¬ t.pc.toNat + 3 < t.memSize → step t = .next { t with halted := true, haltCause := .outOfBoundsFetch }) := by
  refine ⟨_, hstep, hrun, (u32_toNat_add_toInt ..).symm, ?parity, fun hout =>
    step_of_fetch_none hrun (State.fetch_eq_none.2 hout)⟩
  have hoffset := signExtend_toNat_mod_two heven
  rw [State.pc_setPc, BitVec.toNat_add]
  omega

/-- A `beq` packs only when its offset is in range (46_encoder.md R168). -/
theorem beqOffsetOk_of_pack {rs1 rs2 : RegIdx} {label address : Nat} {w : Word}
    (h : pack (.beq rs1 rs2 label) address = .ok w) : beqOffsetOk (beqOffset label address) := by
  by_contra hout
  rw [pack, if_neg hout] at h
  cases h

/-- The offset of a `beq` is counted from the next instruction, so from the branch itself it leads 4 bytes before the
label (44_control_transfer.md R142). -/
theorem ofNat_add_beqOffset {label address : Nat} (h : beqOffsetOk (beqOffset label address)) :
    BitVec.ofNat 32 address + (BitVec.ofInt 13 (beqOffset label address)).signExtend 32 = u32 ((label : Int) - 4) := by
  have hbefore : (address : Int) + beqOffset label address = label - 4 := by
    rw [beqOffset]
    omega
  rw [BitVec.signExtend, toInt_ofInt_beqOffset h, ← BitVec.ofInt_natCast, ← BitVec.ofInt_add, hbefore]

end Sys2Proof.Machine
end

section
/-! PROOFS. The statements about the branch and the jump (44_control_transfer.md). -/

namespace Sys2Proof.Machine

/-- Settles O26: the advance and the 4 subtracted cancel, and the decoder gives even offsets only. -/
theorem targetsAreRelativeToTheInstruction : Obligations.TargetsAreRelativeToTheInstruction := by
  unfold Obligations.TargetsAreRelativeToTheInstruction
  rintro s w _ hrun hf (⟨rs1, rs2, o, hd, heq, rfl⟩ | ⟨rd, o, hd, rfl⟩)
  · have heven : o.getLsbD 0 = false := by simpa [Instr.wf, branchOffsetOk] using wf_of_decodeWord hd
    exact transfer_of_step heven hrun (step_beq_of_eq hrun hf hd heq)
  · have heven : o.getLsbD 0 = false := by simpa [Instr.wf, jumpOffsetOk] using wf_of_decodeWord hd
    exact transfer_of_step (u := s.setReg rd (s.pc + 4)) heven hrun (step_jal hrun hf hd)

/-- Settles O52: the packed word decodes to a `beq` with the offset from the next instruction, which the CPU counts from
the branch. -/
theorem assembledBeqLandsFourBytesBeforeItsLabel : Obligations.AssembledBeqLandsFourBytesBeforeItsLabel := by
  unfold Obligations.AssembledBeqLandsFourBytesBeforeItsLabel
  intro s rs1 rs2 label address w hpack hrun hpc hf heq
  have hd := packedWordsDecodeToTheirOperands.2 _ _ _ hpack
  rw [step_beq_of_eq hrun hf hd heq, hpc, ofNat_add_beqOffset (beqOffsetOk_of_pack hpack)]
  rfl

/-- Settles O23: whether taken or not, `beq` is a write of `pc`. -/
theorem beqBranchesOnEquality : Obligations.BeqBranchesOnEquality := by
  unfold Obligations.BeqBranchesOnEquality
  refine ⟨fun w ho h3 => ?decode, fun _ _ _ => rfl, fun rs1 rs2 offset s => ?exec⟩
  case decode => exact decodeWord_of_classify (m := .beq) (classify_eq_beq.2 ⟨ho, h3⟩)
  case exec =>
    refine ⟨_, (exec_eq _ s).trans (congrArg _ (nextState_beq ..)), fun heq => ?taken, fun hne => if_neg hne,
      fun _ _ => rfl, fun _ => rfl, ⟨rfl, rfl, rfl⟩⟩
    case taken => rw [State.pc_setPc, if_pos heq, u32_toNat_add_toInt_sub_four, target_eq]

/-- Settles O24: the link is the `pc` that the target is counted from. -/
theorem jalLinksAndJumps : Obligations.JalLinksAndJumps := by
  unfold Obligations.JalLinksAndJumps
  refine ⟨fun w ho => ?decode, fun _ _ => rfl, fun rd offset s => ?exec⟩
  case decode => exact decodeWord_of_classify (m := .jal) (classify_eq_jal.2 ho)
  case exec =>
    exact ⟨_, exec_eq _ s, State.reg_setReg_self .., (u32_toNat_add_toInt_sub_four ..).symm,
      sameRegsExcept_nextState (.jal rd offset) s, fun _ => rfl, ⟨rfl, rfl, rfl⟩⟩

end Sys2Proof.Machine
end

section
/-! PROOFS. The statement about the system call (45_system.md). -/

namespace Sys2Proof.Machine

/-- Settles O25: the class does not look beyond the opcode; with 10 in the system-call register `ecall` is a halt, with
any other word it leaves the state as found. -/
theorem ecallExitsOnTen : Obligations.EcallExitsOnTen := by
  unfold Obligations.EcallExitsOnTen
  refine ⟨fun w ho => ?decode, rfl, fun s => ?exec⟩
  case decode => exact decodeWord_of_classify (m := .ecall) (classify_eq_ecall.2 ho)
  case exec =>
    have hten : (s.reg 17).toNat = 10 ↔ s.reg 17 = 10 := BitVec.toNat_inj (y := 10)
    by_cases h : s.reg 17 = 10
    · obtain ⟨t, hexec, hhalted, hcause, hframe⟩ := exec_of_nextState_eq_raise (i := .ecall) (if_pos h)
      exact ⟨t, hexec, fun _ => ⟨hhalted, hcause⟩, fun hne => absurd (hten.2 h) hne, hframe⟩
    · have hexec : exec .ecall s = .next s := (exec_eq .ecall s).trans (congrArg _ (if_neg h))
      exact ⟨s, hexec, fun heq => absurd (hten.1 heq) h, fun _ => ⟨rfl, rfl⟩, fun _ _ => rfl, fun _ => rfl, rfl, rfl⟩

end Sys2Proof.Machine
end

section
/-! SUPPORT. What the statements about the encoder block share: which operations pack, the value of a reduced immediate,
the order of the tests of a shape, and what parsing answers when every register is known. -/

namespace Sys2Proof.Machine

/-! ### Packing -/

/-- Every operation packs, but for a `beq` whose offset cannot be stored (46_encoder.md R163 to R171). -/
theorem exists_pack {op : Operation} {address : Nat}
    (h : ∀ rs1 rs2 l, op = .beq rs1 rs2 l → beqOffsetOk (beqOffset l address)) : ∃ w, pack op address = .ok w := by
  cases op with
  | beq => exact ⟨_, if_pos (h _ _ _ rfl)⟩
  | _ => exact ⟨_, rfl⟩

theorem pack_beq_of_not_ok {l address : Nat} (h : ¬ beqOffsetOk (beqOffset l address)) (rs1 rs2 : RegIdx) :
    pack (.beq rs1 rs2 l) address = .error .branchRangeError := if_neg h

/-- The low `n` bits of an integer, as a number (46_encoder.md R167, R169, R170). -/
theorem natCast_toNat_ofInt (n : Nat) (z : Int) : ((BitVec.ofInt n z).toNat : Int) = z % 2 ^ n := by
  rw [BitVec.toNat_ofInt, Int.toNat_of_nonneg (Int.emod_nonneg _ (by positivity))]
  push_cast
  rfl

/-! ### The tests of a shape, in their order (46_encoder.md R162) -/

/-- The answer to operand text with these register tokens (`none` for a wrong shape): `SyntaxError` for the shape, then
`UnknownRegister`, and what `P` says when every register is known. -/
def ChecksOperands (tokens : Option (List Text)) (P : Except AsmError Operation → Prop)
    (result : Except AsmError Operation) : Prop :=
  (tokens = none → result = .error .syntaxError) ∧
  ∀ l, tokens = some l →
    ((∃ token ∈ l, registerOfText token = none) → result = .error .unknownRegister) ∧
    ((∀ token ∈ l, registerOfText token ≠ none) → P result)

namespace ChecksOperands

variable {P : Except AsmError Operation → Prop}

theorem wrongShape : ChecksOperands none P (.error .syntaxError) := ⟨fun _ => rfl, nofun⟩

theorem nil {result : Except AsmError Operation} (h : P result) : ChecksOperands (some []) P result := by
  refine ⟨nofun, ?_⟩
  rintro _ ⟨⟩
  exact ⟨by simp, fun _ => h⟩

/-- A register token is tested before the tokens after it. -/
theorem cons {token : Text} {tokens : List Text} {f : RegIdx → Except AsmError Operation}
    (h : ∀ r, ChecksOperands (some tokens) P (f r)) :
    ChecksOperands (some (token :: tokens)) P (parseRegister token >>= f) := by
  refine ⟨nofun, ?_⟩
  rintro _ ⟨⟩
  cases hr : registerOfText token with
  | none =>
    have herror : parseRegister token >>= f = .error .unknownRegister := by rw [parseRegister, hr]; rfl
    exact ⟨fun _ => herror, fun hknown => absurd hr (hknown token List.mem_cons_self)⟩
  | some r =>
    have hstep : parseRegister token >>= f = f r := by rw [parseRegister, hr]; rfl
    obtain ⟨hunknown, hknown⟩ := (h r).2 tokens rfl
    rw [hstep]
    exact ⟨fun hex => hunknown (by simpa [hr] using hex), fun hall => hknown (List.forall_mem_cons.1 hall).2⟩

/-- An operation is answered only when the shape is right and every register is known. -/
theorem of_ok {tokens : Option (List Text)} {op : Operation} (h : ChecksOperands tokens P (.ok op)) : P (.ok op) := by
  obtain ⟨hsyntax, hregisters⟩ := h
  cases tokens with
  | none => cases hsyntax rfl
  | some l =>
    obtain ⟨hunknown, hknown⟩ := hregisters l rfl
    refine hknown fun token hmem hnone => ?_
    cases hunknown ⟨token, hmem, hnone⟩

end ChecksOperands

section Shapes

variable {P : Except AsmError Operation → Prop} (t : Text)

theorem parseRRR_checks {make : RegIdx → RegIdx → RegIdx → Operation} (h : ∀ rd rs1 rs2, P (.ok (make rd rs1 rs2))) :
    ChecksOperands ((shapeRRR t).map (fun p => [p.1, p.2.1, p.2.2])) P (parseRRR make t) := by
  unfold parseRRR
  cases shapeRRR t with
  | none => exact .wrongShape
  | some => exact .cons fun _ => .cons fun _ => .cons fun _ => .nil (h ..)

theorem parseRRI_checks {make : RegIdx → RegIdx → Int → Operation} (h : ∀ rd rs1 imm, P (.ok (make rd rs1 imm))) :
    ChecksOperands ((shapeRRI t).map (fun p => [p.1, p.2.1])) P (parseRRI make t) := by
  unfold parseRRI
  cases shapeRRI t with
  | none => exact .wrongShape
  | some => exact .cons fun _ => .cons fun _ => .nil (h ..)

theorem parseRM_checks {make : RegIdx → Int → RegIdx → Operation} (h : ∀ r imm rs1, P (.ok (make r imm rs1))) :
    ChecksOperands ((shapeRM t).map (fun p => [p.1, p.2.2])) P (parseRM make t) := by
  unfold parseRM
  cases shapeRM t with
  | none => exact .wrongShape
  | some => exact .cons fun _ => .cons fun _ => .nil (h ..)

theorem parseRI_checks {make : RegIdx → Int → Operation} (h : ∀ rd imm, P (.ok (make rd imm))) :
    ChecksOperands ((shapeRI t).map (fun p => [p.1])) P (parseRI make t) := by
  unfold parseRI
  cases shapeRI t with
  | none => exact .wrongShape
  | some => exact .cons fun _ => .nil (h ..)

end Shapes

/-! ### Parsing with known registers -/

/-- What parsing answers when the shape is right and every register is known (46_encoder.md R162, R168). -/
inductive ParsedOperands (m : Mnemonic) (t : Text) (table : LabelTable) : Except AsmError Operation → Prop
  /-- Every mnemonic but `beq` gives an operation of its own. -/
  | operation {op : Operation} (hne : m ≠ .beq) (hop : ∀ address, (op.toInstr address).mnemonic = m) :
      ParsedOperands m t table (.ok op)
  /-- The label of a `beq` is not in the table. -/
  | unresolved {a b name : Text} (hbeq : m = .beq) (hshape : shapeRRL t = some (a, b, name))
      (hfind : table.find name = none) : ParsedOperands m t table (.error .unresolvedLabel)
  /-- A `beq` goes to the address of its label. -/
  | branch {a b name : Text} {rs1 rs2 : RegIdx} {target : Nat} (hbeq : m = .beq)
      (hshape : shapeRRL t = some (a, b, name)) (hfind : table.find name = some target) :
      ParsedOperands m t table (.ok (.beq rs1 rs2 target))

theorem ParsedOperands.mnemonic_eq {m : Mnemonic} {t : Text} {table : LabelTable} {op : Operation}
    (h : ParsedOperands m t table (.ok op)) (address : Nat) : (op.toInstr address).mnemonic = m := by
  cases h with
  | operation _ hop => exact hop address
  | branch hbeq => exact hbeq.symm

/-- The label of a `beq` is looked up last. -/
theorem parseRRL_checks (table : LabelTable) (t : Text) :
    ChecksOperands ((shapeRRL t).map (fun p => [p.1, p.2.1])) (ParsedOperands .beq t table) (parseRRL table t) := by
  unfold parseRRL
  cases hshape : shapeRRL t with
  | none => exact .wrongShape
  | some p =>
    refine .cons fun rs1 => .cons fun rs2 => .nil ?_
    cases hfind : table.find p.2.2 with
    | none => exact .unresolved rfl hshape hfind
    | some target => exact .branch rfl hshape hfind

/-- The operands of every mnemonic are tested in the order of 46_encoder.md R162. -/
theorem parseOperands_checks (m : Mnemonic) (t : Text) (table : LabelTable) :
    ChecksOperands (registerTokens m t) (ParsedOperands m t table) (parseOperands m t table) := by
  cases m with
  | add | sub | xor => exact parseRRR_checks t fun _ _ _ => .operation (by decide) fun _ => rfl
  | addi => exact parseRRI_checks t fun _ _ _ => .operation (by decide) fun _ => rfl
  | lw | sw => exact parseRM_checks t fun _ _ _ => .operation (by decide) fun _ => rfl
  | lui | jal => exact parseRI_checks t fun _ _ => .operation (by decide) fun _ => rfl
  | beq => exact parseRRL_checks table t
  | ecall =>
    rw [registerTokens, parseOperands]
    split
    · exact .nil (.operation (by decide) fun _ => rfl)
    · exact .wrongShape

section Line

variable {mnemonic t : Text} {table : LabelTable} {m : Mnemonic}

theorem parse_of_unsupported (hm : mnemonicOfText mnemonic = none) :
    parse mnemonic t table = .error .unsupportedMnemonic := by
  rw [parse, hm]

theorem parse_of_missing (hm : mnemonicOfText mnemonic = some m) (h : m ≠ .ecall ∧ trim t = []) :
    parse mnemonic t table = .error .missingOperands := by
  rw [parse, hm]
  exact if_pos h

theorem parse_of_present (hm : mnemonicOfText mnemonic = some m) (h : ¬ (m ≠ .ecall ∧ trim t = [])) :
    parse mnemonic t table = parseOperands m t table := by
  rw [parse, hm]
  exact if_neg h

/-- What is parsed is an operation of the mnemonic given. -/
theorem mnemonicOfText_of_parse {op : Operation} (h : parse mnemonic t table = .ok op) (address : Nat) :
    mnemonicOfText mnemonic = some (op.toInstr address).mnemonic := by
  cases hm : mnemonicOfText mnemonic with
  | none => cases (parse_of_unsupported hm).symm.trans h
  | some m =>
    by_cases hmissing : m ≠ .ecall ∧ trim t = []
    · cases (parse_of_missing hm hmissing).symm.trans h
    · have hchecks := parseOperands_checks m t table
      rw [← parse_of_present hm hmissing, h] at hchecks
      rw [hchecks.of_ok.mnemonic_eq address]

/-! ### Parsing, then packing (46_encoder.md R160) -/

variable {address : Nat}

theorem encodeLine_of_parse_error {e : AsmError} (h : parse mnemonic t table = .error e) :
    encodeLine mnemonic t address table = .error e := by
  rw [encodeLine, h]
  rfl

theorem encodeLine_of_parse_ok {op : Operation} (h : parse mnemonic t table = .ok op) :
    encodeLine mnemonic t address table = pack op address := by
  rw [encodeLine, h]
  rfl

theorem exists_encodeLine_of_ne_beq (h : ParsedOperands m t table (parse mnemonic t table)) (hm : m ≠ .beq) :
    ∃ w, encodeLine mnemonic t address table = .ok w := by
  generalize hparse : parse mnemonic t table = result at h
  cases h with
  | operation _ hop =>
    rw [encodeLine_of_parse_ok hparse]
    refine exists_pack fun rs1 rs2 l hop_beq => absurd (hop address) ?_
    rw [hop_beq]
    exact hm.symm
  | unresolved hbeq => exact absurd hbeq hm
  | branch hbeq => exact absurd hbeq hm

/-- A `beq` with known registers: the label, then the offset, then a word (46_encoder.md R162, R168). -/
theorem encodeLine_beq (h : ParsedOperands .beq t table (parse mnemonic t table)) {a b l : Text}
    (hl : shapeRRL t = some (a, b, l)) :
    (table.find l = none → encodeLine mnemonic t address table = .error .unresolvedLabel) ∧
    ∀ target, table.find l = some target →
      (¬ beqOffsetOk (beqOffset target address) → encodeLine mnemonic t address table = .error .branchRangeError) ∧
      (beqOffsetOk (beqOffset target address) → ∃ w, encodeLine mnemonic t address table = .ok w) := by
  generalize hparse : parse mnemonic t table = result at h
  cases h with
  | operation hne => exact absurd rfl hne
  | unresolved _ hshape hfind =>
    cases hshape.symm.trans hl
    exact ⟨fun _ => encodeLine_of_parse_error hparse, fun target htarget => by cases hfind.symm.trans htarget⟩
  | branch _ hshape hfind =>
    cases hshape.symm.trans hl
    rw [encodeLine_of_parse_ok hparse]
    refine ⟨fun hnone => (by cases hfind.symm.trans hnone), fun target htarget => ?_⟩
    cases hfind.symm.trans htarget
    refine ⟨fun hout => pack_beq_of_not_ok hout .., fun hok => exists_pack ?_⟩
    rintro _ _ _ ⟨⟩
    exact hok

end Line

end Sys2Proof.Machine
end

section
/-! PROOFS. The statements about the encoder block (46_encoder.md). -/

namespace Sys2Proof.Machine

/-- Settles O48: what packs is the canonical word, and only the offset of a `beq` can prevent packing. -/
theorem packIsEncodeOfTheReducedInstruction : Obligations.PackIsEncodeOfTheReducedInstruction := by
  unfold Obligations.PackIsEncodeOfTheReducedInstruction
  intro op address
  by_cases hok : ∀ rs1 rs2 l, op = .beq rs1 rs2 l → beqOffsetOk (beqOffset l address)
  · obtain ⟨w, hw⟩ := exists_pack hok
    obtain ⟨hwf, rfl⟩ := encode_of_pack hw
    exact .inr ⟨hok, hwf, hw⟩
  · simp only [not_forall, exists_prop] at hok
    obtain ⟨rs1, rs2, l, rfl, hout⟩ := hok
    exact .inl ⟨rs1, rs2, l, rfl, hout, pack_beq_of_not_ok hout rs1 rs2⟩

/-- Settles O50: the 13 bits of the field keep an offset in range whole. -/
theorem beqStoresTheOffsetFromTheNextInstruction : Obligations.BeqStoresTheOffsetFromTheNextInstruction := by
  unfold Obligations.BeqStoresTheOffsetFromTheNextInstruction
  intro rs1 rs2 label address offset
  refine ⟨fun hok => ⟨packBeq rs1 rs2 offset, if_pos hok, ?_⟩, fun hout => pack_beq_of_not_ok hout rs1 rs2⟩
  have heven : (BitVec.ofInt 13 offset).getLsbD 0 = false := getLsbD_zero_ofInt hok.2.2
  rw [packBeq_eq, immB_formatB _ _ _ _ _ heven]
  exact ⟨toInt_ofInt_beqOffset hok, rs1Field_formatB .., rs2Field_formatB ..⟩

/-- Settles O51: the immediate read back from the word is the reduced one; `jal` packs the even number at or below
the one written. -/
theorem immediatesAreReducedWithoutError : Obligations.ImmediatesAreReducedWithoutError := by
  unfold Obligations.ImmediatesAreReducedWithoutError
  refine fun r r' imm address => ⟨⟨_, rfl, ?addi⟩, ⟨_, rfl, ?lw⟩, ⟨_, rfl, ?sw⟩, ⟨_, rfl, ?lui⟩, ⟨_, rfl, ?jal⟩⟩
  case addi => rw [packAddi_eq, immI_formatI, reduce12, natCast_toNat_ofInt]
  case lw => rw [packLw_eq, immI_formatI, reduce12, natCast_toNat_ofInt]
  case sw => rw [packSw_eq, immS_formatS, reduce12, natCast_toNat_ofInt]
  case lui => rw [packLui_eq, immU_formatU, natCast_toNat_ofInt]
  case jal =>
    have heven : (BitVec.ofInt 21 (imm - imm % 2)).getLsbD 0 = false := getLsbD_zero_ofInt (by omega)
    rw [← packJal_even, packJal_eq, immJ_formatJ _ _ _ heven, natCast_toNat_ofInt]
    omega

/-- Settles O53: a word comes from an operation of the mnemonic given, packed. -/
theorem encoderEmitsOnlyCanonicalWords : Obligations.EncoderEmitsOnlyCanonicalWords := by
  unfold Obligations.EncoderEmitsOnlyCanonicalWords
  intro mnemonic operandText address table w h
  cases hparse : parse mnemonic operandText table with
  | error e => cases (encodeLine_of_parse_error hparse).symm.trans h
  | ok op =>
    obtain ⟨-, rfl⟩ := encode_of_pack ((encodeLine_of_parse_ok hparse).symm.trans h)
    exact ⟨_, mnemonicOfText_of_parse hparse address, canonical_encode _⟩

/-- Settles O55: the mnemonic, the presence of operands, then the tests of the shape, and for `beq` those
of the label. -/
theorem encoderChecksInOrder : Obligations.EncoderChecksInOrder := by
  unfold Obligations.EncoderChecksInOrder
  intro mnemonic operandText address table result
  refine ⟨fun hm => ?unsupported, fun m hm => ⟨fun hne hblank => ?missing, fun hpresent => ?operands⟩⟩
  case unsupported => exact encodeLine_of_parse_error (parse_of_unsupported hm)
  case missing => exact encodeLine_of_parse_error (parse_of_missing hm ⟨hne, hblank⟩)
  case operands =>
    have hchecks := parseOperands_checks m operandText table
    rw [← parse_of_present hm fun ⟨hne, hblank⟩ => hpresent.elim hne (· hblank)] at hchecks
    obtain ⟨hsyntax, hregisters⟩ := hchecks
    refine ⟨fun hshape => encodeLine_of_parse_error (hsyntax hshape), fun tokens htokens => ?_⟩
    obtain ⟨hunknown, hknown⟩ := hregisters tokens htokens
    refine ⟨fun h => encodeLine_of_parse_error (hunknown h), fun h =>
      ⟨fun hne => exists_encodeLine_of_ne_beq (hknown h) hne, ?_⟩⟩
    rintro rfl a b l hshape
    exact encodeLine_beq (hknown h) hshape

end Sys2Proof.Machine
end

section
/-! SUPPORT. What the statements about the assembler share: register tokens, the labels that pass 1 finds fresh and the
table it leaves, the lines that pass 2 encodes, and the bytes of the image and of the memory it is loaded into. -/

namespace Sys2Proof.Machine

/-! ### Register tokens -/

/-- None of the five names begins with `x`. -/
theorem registerOfText_x (digits : Text) : registerOfText ('x' :: digits) = numberedRegister ('x' :: digits) := by
  simp [registerOfText]

theorem numberedRegister_x {digits : Text} {n : Nat} (h : naturalOfText digits = some n) :
    numberedRegister ('x' :: digits) = if n < 32 then some (BitVec.ofNat 5 n) else none := by
  simp only [numberedRegister, h]

/-- A token of the `xN` form is `x` and digits of a value below 32. -/
theorem exists_digits_of_numberedRegister {t : Text} {r : RegIdx} (h : numberedRegister t = some r) :
    ∃ digits n, t = 'x' :: digits ∧ naturalOfText digits = some n ∧ n < 32 := by
  unfold numberedRegister at h
  split at h
  next digits =>
    split at h
    next n hn => exact ⟨digits, n, rfl, hn, (Option.ite_none_right_eq_some.1 h).1⟩
    next => cases h
  next => cases h

/-- A token that names a register is one of the five names or has the `xN` form. -/
theorem mem_names_or_numberedRegister {t : Text} {r : RegIdx} (h : registerOfText t = some r) :
    t ∈ ["zero".toList, "ra".toList, "sp".toList, "a0".toList, "a7".toList] ∨ numberedRegister t = some r := by
  unfold registerOfText at h
  split_ifs at h <;> simp [*]

/-! ### Pass 1 -/

/-- Pass 1 can record every one of the names: none is in the table yet, and none comes twice. -/
def LabelTable.Fresh (table : LabelTable) (names : List Text) : Prop :=
  names.Nodup ∧ ∀ name ∈ names, table.find name = none

theorem LabelTable.fresh_nil_names (table : LabelTable) : table.Fresh [] := ⟨List.nodup_nil, nofun⟩

theorem LabelTable.fresh_nil_iff {names : List Text} : LabelTable.Fresh [] names ↔ names.Nodup :=
  and_iff_left fun _ _ => rfl

/-- The names after the first are fresh in the table that holds it. -/
theorem LabelTable.fresh_cons_iff {table : LabelTable} {name : Text} {names : List Text} (address : Nat) :
    table.Fresh (name :: names) ↔ table.find name = none ∧ LabelTable.Fresh (table ++ [(name, address)]) names := by
  have hother (other : Text) : LabelTable.find (table ++ [(name, address)]) other = none ↔
      table.find other = none ∧ other ≠ name := by
    simp [find_append]
  simp only [Fresh, hother, List.nodup_cons, List.forall_mem_cons]
  constructor
  · rintro ⟨⟨hnot, hnodup⟩, hname, hnames⟩
    exact ⟨hname, hnodup, fun other ho => ⟨hnames other ho, fun e => hnot (e ▸ ho)⟩⟩
  · rintro ⟨hname, hnodup, hnames⟩
    exact ⟨⟨fun hmem => (hnames name hmem).2 rfl, hnodup⟩, hname, fun other ho => (hnames other ho).1⟩

section Line

variable {line : Text}

theorem pass1From_skip (h : classifyLine line = .empty ∨ classifyLine line = .directive) (address : Nat)
    (table : LabelTable) (rest : List Text) :
    pass1From address table (line :: rest) = pass1From address table rest := by
  obtain h | h := h <;> simp only [pass1From, h]

theorem pass1From_instruction {m t : Text} (h : classifyLine line = .instruction m t) (address : Nat)
    (table : LabelTable) (rest : List Text) :
    pass1From address table (line :: rest) = pass1From (address + 4) table rest := by
  simp only [pass1From, h]

theorem pass1From_label {name : Text} {table : LabelTable} (h : classifyLine line = .label name)
    (hfind : table.find name = none) (address : Nat) (rest : List Text) :
    pass1From address table (line :: rest) = pass1From address (table ++ [(name, address)]) rest := by
  simp only [pass1From, h, hfind]

theorem pass1From_duplicate {name : Text} {table : LabelTable} {a : Nat} (h : classifyLine line = .label name)
    (hfind : table.find name = some a) (address : Nat) (rest : List Text) :
    pass1From address table (line :: rest) = .error .duplicateLabel := by
  simp only [pass1From, h, hfind]

end Line

/-- Pass 1 answers a table exactly when the label names are fresh; its only error is a duplicate label. -/
theorem pass1From_fresh (address : Nat) (table : LabelTable) (source : List Text) :
    (table.Fresh (labelNames source) → ∃ table', pass1From address table source = .ok table') ∧
    (¬ table.Fresh (labelNames source) → pass1From address table source = .error .duplicateLabel) := by
  induction source generalizing address table with
  | nil => exact ⟨fun _ => ⟨table, rfl⟩, fun h => absurd table.fresh_nil_names h⟩
  | cons line rest ih =>
    cases h : classifyLine line with
    | empty => rw [labelNames_cons, h, pass1From_skip (.inl h)]; exact ih address table
    | directive => rw [labelNames_cons, h, pass1From_skip (.inr h)]; exact ih address table
    | instruction => rw [labelNames_cons, h, pass1From_instruction h]; exact ih (address + 4) table
    | label name =>
      simp only [labelNames_cons, h, List.singleton_append, LabelTable.fresh_cons_iff address]
      cases hfind : table.find name with
      | some => exact ⟨fun hf => (nomatch hf.1), fun _ => pass1From_duplicate h hfind address rest⟩
      | none => simpa only [pass1From_label h hfind, true_and] using ih address (table ++ [(name, address)])

/-- Pass 1 of a source in two parts: the second starts after the instructions of the first, with its table. -/
theorem pass1From_append (address : Nat) (table : LabelTable) (before after : List Text) :
    pass1From address table (before ++ after) =
      (pass1From address table before).bind fun table' =>
        pass1From (address + 4 * instructionCount before) table' after := by
  induction before generalizing address table with
  | nil => rfl
  | cons line rest ih =>
    rw [List.cons_append, instructionCount_cons]
    cases h : classifyLine line with
    | empty => simp only [pass1From_skip (.inl h), ih, Nat.add_zero]
    | directive => simp only [pass1From_skip (.inr h), ih, Nat.add_zero]
    | instruction => simp only [pass1From_instruction h, ih, Nat.mul_add, Nat.add_assoc, Nat.add_comm]
    | label name =>
      cases hfind : table.find name with
      | some => simp only [pass1From_duplicate h hfind]; rfl
      | none => simp only [pass1From_label h hfind, ih, Nat.add_zero]

/-- Pass 1 keeps every address that is in the table. -/
theorem find_of_pass1From {address a : Nat} {table table' : LabelTable} {source : List Text} {name : Text}
    (hpass : pass1From address table source = .ok table') (hfind : table.find name = some a) :
    table'.find name = some a := by
  induction source generalizing address table with
  | nil => cases hpass; exact hfind
  | cons line rest ih =>
    cases h : classifyLine line with
    | empty => exact ih (pass1From_skip (.inl h) .. ▸ hpass) hfind
    | directive => exact ih (pass1From_skip (.inr h) .. ▸ hpass) hfind
    | instruction => exact ih (pass1From_instruction h .. ▸ hpass) hfind
    | label other =>
      cases hother : table.find other with
      | some => cases (pass1From_duplicate h hother ..).symm.trans hpass
      | none => exact ih (pass1From_label h hother .. ▸ hpass) (by rw [find_append, hfind, Option.some_or])

/-- A label line that pass 1 gets past is in the table at its own address. -/
theorem find_of_pass1From_label {address : Nat} {table table' : LabelTable} {line name : Text} {rest : List Text}
    (h : classifyLine line = .label name) (hpass : pass1From address table (line :: rest) = .ok table') :
    table'.find name = some address := by
  cases hfind : table.find name with
  | some => cases (pass1From_duplicate h hfind ..).symm.trans hpass
  | none => exact find_of_pass1From (pass1From_label h hfind .. ▸ hpass) (by rw [find_append, hfind]; simp)

/-! ### Pass 2 -/

/-- One word for each instruction line, the n-th as the encoder gives it `4n` after the first address. -/
def EncodesLines (table : LabelTable) (address : Nat) (lines : List (Text × Text)) (words : List Word) : Prop :=
  words.length = lines.length ∧ ∀ (n : Nat) (m t : Text), lines[n]? = some (m, t) →
    ∃ w, words[n]? = some w ∧ encodeLine m t (address + 4 * n) table = .ok w

theorem EncodesLines.nil (table : LabelTable) (address : Nat) : EncodesLines table address [] [] := ⟨rfl, nofun⟩

theorem EncodesLines.cons {table : LabelTable} {address : Nat} {m t : Text} {w : Word} {lines : List (Text × Text)}
    {words : List Word} (hw : encodeLine m t address table = .ok w)
    (hws : EncodesLines table (address + 4) lines words) :
    EncodesLines table address ((m, t) :: lines) (w :: words) := by
  obtain ⟨hlength, hlines⟩ := hws
  refine ⟨congrArg (· + 1) hlength, fun n m' t' hn => ?_⟩
  cases n with
  | zero => cases hn; exact ⟨w, rfl, hw⟩
  | succ n =>
    obtain ⟨w', hw', henc⟩ := hlines n m' t' hn
    exact ⟨w', hw', by rwa [show address + 4 * (n + 1) = address + 4 + 4 * n by omega]⟩

/-- Pass 2 gets past an instruction line only with its word and the words of the rest. -/
theorem pass2From_instruction_ok {line m t : Text} (h : classifyLine line = .instruction m t) {table : LabelTable}
    {address : Nat} {rest : List Text} {words : List Word}
    (hpass : pass2From table address (line :: rest) = .ok words) :
    ∃ w ws, encodeLine m t address table = .ok w ∧ pass2From table (address + 4) rest = .ok ws ∧
      words = w :: ws := by
  simp only [pass2From, h] at hpass
  split at hpass
  next => cases hpass
  next w hw =>
    split at hpass
    next => cases hpass
    next ws hws => cases hpass; exact ⟨w, ws, hw, hws, rfl⟩

theorem encodesLines_of_pass2From {table : LabelTable} {address : Nat} {source : List Text} {words : List Word}
    (hpass : pass2From table address source = .ok words) :
    EncodesLines table address (instructionLines source) words := by
  induction source generalizing address words with
  | nil => cases hpass; exact .nil table address
  | cons line rest ih =>
    rw [instructionLines_cons]
    cases h : classifyLine line with
    | empty | directive | label => simp only [pass2From, h] at hpass; exact ih hpass
    | instruction =>
      obtain ⟨w, ws, hw, hws, rfl⟩ := pass2From_instruction_ok h hpass
      exact .cons hw (ih hws)

/-- The assembler answers what pass 2 answers with the table of pass 1. -/
theorem assemble_eq_ok {source : List Text} {words : List Word} (h : assemble source = .ok words) :
    ∃ table, pass1 source = .ok table ∧ pass2 table source = .ok words := by
  rw [assemble] at h
  cases hpass : pass1 source with
  | error => rw [hpass] at h; cases h
  | ok table => rw [hpass] at h; exact ⟨table, rfl, h⟩

/-! ### The image -/

theorem length_imageOf (words : List Word) : (imageOf words).length = 4 * words.length := by
  induction words with
  | nil => rfl
  | cons w words ih => rw [imageOf_cons, List.length_append, ih, List.length_cons, Nat.mul_add, Nat.add_comm]; rfl

theorem getElem?_bytesOfWord (w : Word) {k : Nat} (hk : k < 4) : (bytesOfWord w)[k]? = some (byteOfWord w k) := by
  obtain rfl | rfl | rfl | rfl : k = 0 ∨ k = 1 ∨ k = 2 ∨ k = 3 := by omega
  all_goals rfl

/-- Byte `4n + k` of the image is byte `k` of word `n` (47_assembler.md R206). -/
theorem getElem?_imageOf {words : List Word} {n k : Nat} {w : Word} (hn : words[n]? = some w) (hk : k < 4) :
    (imageOf words)[4 * n + k]? = some (byteOfWord w k) := by
  induction words generalizing n with
  | nil => cases hn
  | cons x words ih =>
    rw [imageOf_cons]
    cases n with
    | zero =>
      cases hn
      rw [Nat.mul_zero, Nat.zero_add, List.getElem?_append_left hk, getElem?_bytesOfWord w hk]
    | succ n =>
      rw [show 4 * (n + 1) + k = (bytesOfWord x).length + (4 * n + k) by simp only [bytesOfWord, List.length]; omega,
        List.getElem?_append_right (Nat.le_add_right ..), Nat.add_sub_cancel_left]
      exact ih hn

/-- A byte of an image loaded into the empty memory from address 0 is read at its index. -/
theorem Memory.read_load_nil {image : List Byte} {i : Nat} {b : Byte} (h : image[i]? = some b) :
    (Memory.load [] Config.loadBase image).read i = b := by
  obtain ⟨hi, rfl⟩ := List.getElem?_eq_some_iff.1 h
  simp [Memory.read_load Memory.wf_nil, Config.loadBase, hi]

/-- The loaded image of a list of words holds word `n` at address `4n`. -/
theorem Memory.readWord_load_imageOf {words : List Word} {n : Nat} {w : Word} (hn : words[n]? = some w) :
    (Memory.load [] Config.loadBase (imageOf words)).readWord (4 * n) = w := by
  have hbyte {k : Nat} (hk : k < 4) := Memory.read_load_nil (getElem?_imageOf hn hk)
  have h0 := hbyte (k := 0) (by omega)
  rw [Nat.add_zero] at h0
  rw [Memory.readWord, h0, hbyte (k := 1) (by omega), hbyte (k := 2) (by omega), hbyte (k := 3) (by omega),
    Memory.wordOfBytes_byteOfWord]

end Sys2Proof.Machine
end

section
/-! PROOFS. The statements about the assembler (47_assembler.md). -/

namespace Sys2Proof.Machine

/-- Settles O54: a token is tested against the five names, then for the `xN` form. -/
theorem registerNamesAreTheTable : Obligations.RegisterNamesAreTheTable := by
  unfold Obligations.RegisterNamesAreTheTable
  refine ⟨by decide, fun digits n hn => ?_, fun t r h => ?_⟩
  · rw [registerOfText_x, numberedRegister_x hn]
  · exact (mem_names_or_numberedRegister h).imp_right exists_digits_of_numberedRegister

/-- Settles O56: pass 1 reaches the line at its address and keeps what it records there. -/
theorem passOneRecordsLabelAddresses : Obligations.PassOneRecordsLabelAddresses := by
  unfold Obligations.PassOneRecordsLabelAddresses
  intro before after line name table h hpass
  rw [pass1, pass1From_append, Config.asmBase, Nat.zero_add] at hpass
  cases hbefore : pass1From 0 [] before with
  | error => rw [hbefore] at hpass; cases hpass
  | ok found => rw [hbefore] at hpass; exact find_of_pass1From_label h hpass

/-- Settles O57: in the empty table, names are fresh exactly when no two are equal. -/
theorem passOneRejectsExactlyDuplicates : Obligations.PassOneRejectsExactlyDuplicates := by
  unfold Obligations.PassOneRejectsExactlyDuplicates
  intro source
  rw [← LabelTable.fresh_nil_iff]
  exact pass1From_fresh Config.asmBase [] source

/-- Settles O58: both passes start at address 0. -/
theorem passTwoEncodesEachLineAtItsAddress : Obligations.PassTwoEncodesEachLineAtItsAddress := by
  unfold Obligations.PassTwoEncodesEachLineAtItsAddress
  intro source words h
  obtain ⟨table, hpass1, hpass2⟩ := assemble_eq_ok h
  obtain ⟨hlength, hlines⟩ := encodesLines_of_pass2From hpass2
  simp only [Config.asmBase, Nat.zero_add] at hlines
  exact ⟨table, hpass1, hlength, hlines⟩

/-- Settles O59, by induction on the words. -/
theorem imageIsLittleEndianWords : Obligations.ImageIsLittleEndianWords := by
  unfold Obligations.ImageIsLittleEndianWords
  exact fun words => ⟨length_imageOf words, fun _ _ _ => getElem?_imageOf⟩

/-- Settles O60: the image fits in a memory of at most 2^32 bytes, so the address `4n` does not wrap and the four bytes
of the word are in bounds. -/
theorem loadedWordsAreFetched : Obligations.LoadedWordsAreFetched := by
  unfold Obligations.LoadedWordsAreFetched
  intro memSize words s n w hreset hn
  obtain ⟨⟨⟨-, hmax⟩, hfit⟩, rfl⟩ := resetWith_eq_some.1 hreset
  rw [length_imageOf] at hfit
  obtain ⟨hlt, -⟩ := List.getElem?_eq_some_iff.1 hn
  have hpc : (BitVec.ofNat 32 (4 * n)).toNat = 4 * n := BitVec.toNat_ofNat .. ▸ Nat.mod_eq_of_lt (by omega)
  refine State.fetch_eq_some.2 ⟨?_, ?_⟩
  · rw [State.inBounds, hpc]; show 4 * n + 3 < memSize; omega
  · rw [State.loadWord, hpc]; exact Memory.readWord_load_imageOf hn

end Sys2Proof.Machine
end

section
/-! SUPPORT. What the statements about halting share: the store as the only update of memory, the cause a fetched word
halts the CPU with, and the word in zero memory. -/

namespace Sys2Proof.Machine

/-! ### The store is the only update of memory (10_state.md section 1) -/

theorem mem_nextState (i : Instr) (s : State) :
    (nextState i s).mem = s.mem ∨ ∃ rs1 rs2 imm, i = .sw rs1 rs2 imm ∧ s.inBounds (s.effectiveAddress rs1 imm) ∧
      (nextState i s).mem = s.mem.writeWord (s.effectiveAddress rs1 imm).toNat (s.reg rs2) := by
  cases i with
  | add | sub | xor | addi | lui | jal => exact .inl rfl
  | lw | beq | ecall =>
    left
    simp only [nextState]
    split <;> rfl
  | sw rs1 rs2 imm =>
    by_cases hin : s.inBounds (s.effectiveAddress rs1 imm)
    · exact .inr ⟨rs1, rs2, imm, rfl, hin, congrArg State.mem (if_pos hin)⟩
    · left
      rw [nextState, if_neg hin, State.mem_raise]

theorem mem_nextDecoded (d : Decoded) (s : State) :
    (nextDecoded d s).mem = s.mem ∨ ∃ rs1 rs2 imm, d = .instr (.sw rs1 rs2 imm) ∧
      s.inBounds (s.effectiveAddress rs1 imm) ∧
      (nextDecoded d s).mem = s.mem.writeWord (s.effectiveAddress rs1 imm).toNat (s.reg rs2) := by
  cases d with
  | instr i =>
    refine (mem_nextState i s).imp_right ?_
    rintro ⟨rs1, rs2, imm, rfl, hstore⟩
    exact ⟨rs1, rs2, imm, rfl, hstore⟩
  | noOperation | branchUnimplemented | opcodeUnimplemented => exact .inl rfl

/-! ### The cause a fetched word halts with (60_exceptions.md R220) -/

/-- The causes a halt leaves with `pc` advanced (60_exceptions.md R226). -/
theorem HaltCause.mem_of_ne {c : HaltCause} (hnone : c ≠ .none) (hfetch : c ≠ .outOfBoundsFetch) :
    c ∈ [.unimplementedInstruction, .outOfBoundsLoad, .outOfBoundsStore, .exit] := by
  cases c with
  | none => exact absurd rfl hnone
  | outOfBoundsFetch => exact absurd rfl hfetch
  | exit | outOfBoundsLoad | outOfBoundsStore | unimplementedInstruction => decide

/-- The halt cause that the execute stage of a word records; `none` when it does not halt. -/
def haltCauseOf (w : Word) (s : State) : HaltCause :=
  match classify w with
  | .lw => if s.inBounds (s.effectiveAddress (rs1Field w) (immI w)) then .none else .outOfBoundsLoad
  | .sw => if s.inBounds (s.effectiveAddress (rs1Field w) (immS w)) then .none else .outOfBoundsStore
  | .ecall => if s.reg 17 = 10 then .exit else .none
  | .bUnimplemented => .unimplementedInstruction
  | .unimplemented => .unimplementedInstruction
  | _ => .none

/-- The execute stage of a word is a halt, with the word's cause, or leaves `halted` and `halt_cause` as they are. -/
theorem nextDecoded_halts_or_sameControl (w : Word) (s : State) :
    (haltCauseOf w s ≠ .none ∧ nextDecoded (decodeWord w) s = s.raise (haltCauseOf w s)) ∨
    (haltCauseOf w s = .none ∧ SameControl s (nextDecoded (decodeWord w) s)) := by
  unfold haltCauseOf decodeWord
  cases classify w with
  | add | sub | xor | rUnrecognised | addi | lui | jal => exact .inr ⟨rfl, rfl, rfl, rfl⟩
  | bUnimplemented | unimplemented => exact .inl ⟨nofun, rfl⟩
  | beq => exact .inr ⟨rfl, by rw [nextDecoded, nextState_beq]; exact ⟨rfl, rfl, rfl⟩⟩
  | lw | sw =>
    simp only [nextDecoded, nextState]
    split
    · exact .inr ⟨rfl, rfl, rfl, rfl⟩
    · exact .inl ⟨nofun, rfl⟩
  | ecall =>
    simp only [nextDecoded, nextState]
    split
    · exact .inl ⟨nofun, rfl⟩
    · exact .inr ⟨rfl, rfl, rfl, rfl⟩

section Causes

variable {w : Word} {s : State}

theorem haltCauseOf_ne_outOfBoundsFetch : haltCauseOf w s ≠ .outOfBoundsFetch := by
  unfold haltCauseOf; cases classify w <;> simp [ite_eq_iff]

theorem haltCauseOf_eq_unimplementedInstruction : haltCauseOf w s = .unimplementedInstruction ↔
    classify w = .unimplemented ∨ classify w = .bUnimplemented := by
  unfold haltCauseOf; cases classify w <;> simp [ite_eq_iff]

theorem haltCauseOf_eq_outOfBoundsLoad : haltCauseOf w s = .outOfBoundsLoad ↔
    classify w = .lw ∧ ¬ s.inBounds (s.effectiveAddress (rs1Field w) (immI w)) := by
  unfold haltCauseOf; cases classify w <;> simp [ite_eq_iff]

theorem haltCauseOf_eq_outOfBoundsStore : haltCauseOf w s = .outOfBoundsStore ↔
    classify w = .sw ∧ ¬ s.inBounds (s.effectiveAddress (rs1Field w) (immS w)) := by
  unfold haltCauseOf; cases classify w <;> simp [ite_eq_iff]

theorem haltCauseOf_eq_exit : haltCauseOf w s = .exit ↔ classify w = .ecall ∧ s.reg 17 = 10 := by
  unfold haltCauseOf; cases classify w <;> simp [ite_eq_iff]

end Causes

/-- From a running state without a cause, executing a word records the word's cause and halts exactly when there is
one. -/
theorem control_nextDecoded {s : State} (hrun : s.halted = false) (hnone : s.haltCause = .none) (w : Word) :
    (nextDecoded (decodeWord w) s).haltCause = haltCauseOf w s ∧
      ((nextDecoded (decodeWord w) s).halted = true ↔ haltCauseOf w s ≠ .none) := by
  obtain ⟨hcause, hnext⟩ | ⟨hcause, hhalted, hsame, -⟩ := nextDecoded_halts_or_sameControl w s
  · simp [hnext, hcause]
  · simp [hhalted, hsame, hcause, hrun, hnone]

/-! ### Zero memory (70_reset_and_hazards.md R264) -/

/-- Four zero bytes are the zero word. -/
theorem Memory.readWord_of_read_eq_zero {m : Memory} {a : Nat} (h : ∀ b, a ≤ b → m.read b = 0) :
    m.readWord a = 0 := by
  simp only [readWord, h _ (Nat.le_refl a), h _ (Nat.le_add_right a _)]
  rfl

end Sys2Proof.Machine
end

section
/-! PROOFS. The statements about halting: what a step may change, what a halt leaves, and when the CPU halts
(60_exceptions.md). -/

namespace Sys2Proof.Machine

/-- Settles O32: a halt leaves memory, and of the executed words only an `sw` in bounds updates it. -/
theorem onlySwChangesMemory : Obligations.OnlySwChangesMemory := by
  unfold Obligations.OnlySwChangesMemory
  intro s t b hm hstep hb
  obtain ⟨-, rfl⟩ | ⟨-, -, rfl⟩ | ⟨hrun, w, hf, rfl⟩ := step_cases hstep
  · exact absurd rfl hb
  · exact absurd rfl hb
  obtain hsame | ⟨rs1, rs2, imm, hd, hin, hstore⟩ := mem_nextDecoded (decodeWord w) s.advancePc
  · exact absurd (congrArg (Memory.read · b) hsame) hb
  have hrange : ¬ (b < (s.effectiveAddress rs1 imm).toNat ∨ (s.effectiveAddress rs1 imm).toNat + 3 < b) :=
    fun hout => hb (by rw [hstore]; exact Memory.read_writeWord_of_ne hm _ hout)
  exact ⟨hrun, w, rs1, rs2, imm, hf, hd, hin, by omega, by omega⟩

/-- Settles O34: every halt is `State.raise`, before `pc` is advanced only when the fetch fails. -/
theorem haltingStepLeavesRegistersAndMemory : Obligations.HaltingStepLeavesRegistersAndMemory := by
  unfold Obligations.HaltingStepLeavesRegistersAndMemory
  intro s t hrun hstep hhalt
  obtain ⟨hhalted, -⟩ | ⟨-, -, rfl⟩ | ⟨-, w, -, rfl⟩ := step_cases hstep
  · exact absurd (hrun.symm.trans hhalted) nofun
  · exact ⟨fun _ _ => rfl, fun _ => rfl, rfl, .inl ⟨rfl, rfl⟩⟩
  obtain ⟨hcause, hnext⟩ | ⟨-, hsame, -⟩ := nextDecoded_halts_or_sameControl w s.advancePc
  · rw [hnext]
    refine ⟨fun _ _ => rfl, fun _ => rfl, rfl, .inr ⟨?cause, congrArg State.pc (advancePc_eq s)⟩⟩
    exact HaltCause.mem_of_ne hcause haltCauseOf_ne_outOfBoundsFetch
  · exact absurd (hrun.symm.trans (hsame.symm.trans hhalt)) nofun

/-- Settles O35: without a fetch there is one cause only; a fetched word's cause is told by its class, which the fields
of the word fix. -/
theorem haltConditionsAreExactlyFive : Obligations.HaltConditionsAreExactlyFive := by
  unfold Obligations.HaltConditionsAreExactlyFive
  intro s t hrun hnone hstep
  obtain ⟨hhalted, -⟩ | ⟨-, hf, rfl⟩ | ⟨-, w, hf, rfl⟩ := step_cases hstep
  · exact absurd (hrun.symm.trans hhalted) nofun
  · have hout := State.fetch_eq_none.1 hf
    simp [hout]
  obtain ⟨hin, hw⟩ := State.fetch_eq_some.1 hf
  obtain ⟨hcause, hhalted⟩ := control_nextDecoded (s := s.advancePc) hrun hnone w
  rw [ofNat_memReadValue, ← State.loadWord, hw]
  simp only [hcause, hin, true_and, not_true_eq_false, iff_false, ← toInt_immI, ← toInt_immS,
    u32_toNat_add_toInt]
  refine ⟨haltCauseOf_ne_outOfBoundsFetch, ?_, ?_, ?_, ?_, hhalted⟩
  · rw [haltCauseOf_eq_unimplementedInstruction, classify_eq_unimplemented, classify_eq_bUnimplemented]
  · rw [haltCauseOf_eq_outOfBoundsLoad, classify_eq_lw]; rfl
  · rw [haltCauseOf_eq_outOfBoundsStore, classify_eq_sw]; rfl
  · rw [haltCauseOf_eq_exit, classify_eq_ecall]; rfl

end Sys2Proof.Machine
end

section
/-! PROOFS. The statements about what the host is shown, and the zero word past the image (60_exceptions.md R232 and
R233, 70_reset_and_hazards.md R264). -/

namespace Sys2Proof.Machine

/-- Settles O46: a CPU whose fetch fails is halted, or is after this step. -/
theorem traceReportsEveryFetch : Obligations.TraceReportsEveryFetch := by
  unfold Obligations.TraceReportsEveryFetch
  refine ⟨fun n s w hrun hf => ?fetched, fun n s hf => ?failed, fun n s => ?off⟩
  case fetched => simp [runTrace, State.traceEntry, hrun, hf]
  case failed =>
    cases hh : s.halted with
    | true => exact runTrace_of_halted hh true n
    | false =>
      cases n with
      | zero => rfl
      | succ n =>
        have hafter : runTrace true n s.after = [] :=
          runTrace_of_halted (by rw [after_of_fetch_none hh hf, State.halted_raise]) true n
        simp [runTrace, State.traceEntry, hh, hf, hafter]
  case off => cases n <;> simp [runTrace]

/-- Settles O47. -/
theorem reportIsTheRegisterFile : Obligations.ReportIsTheRegisterFile := by
  unfold Obligations.ReportIsTheRegisterFile
  intro s hhalted
  refine ⟨s.regs.toList, if_pos hhalted, Vector.length_toList, fun r => ?_⟩
  rw [State.reg, Vector.get_eq_getElem]
  exact List.getElem?_eq_getElem (by simp [r.isLt])

/-- Settles O43: the zero word has an opcode outside the eight. -/
theorem runningPastTheImageHalts : Obligations.RunningPastTheImageHalts := by
  unfold Obligations.RunningPastTheImageHalts
  intro s hrun hin hzero
  have hf : s.fetch = some 0 := by rw [fetch_of_inBounds hin, Memory.readWord_of_read_eq_zero hzero]
  have hd : decodeWord 0 = .opcodeUnimplemented := by decide
  rw [step_of_fetch_some hrun hf, hd]
  rfl

end Sys2Proof.Machine
end

section
/-! PROOFS. The statement about the words written out in the spec (95_test_vectors.md S7). -/

namespace Sys2Proof

/-- Settles O1: ten closed facts, which the decoder evaluates. -/
theorem specWordsDecode : Obligations.SpecWordsDecode := by
  unfold Obligations.SpecWordsDecode
  decide

end Sys2Proof
end
